-- ==== Sys2Proof/Word.lean ====
section
/-! DEFINITION. The datapath word and the register index (spec/00_scope.md R5 to R7). -/

namespace Sys2Proof

/-- XLEN is 32 (R5): a register, a memory cell, an instruction word, an ALU operand or result, the
program counter. Arithmetic on it is modulo 2^32 and it is held unsigned (R7). -/
abbrev Word := BitVec 32

/-- A general register's number as an instruction word or a buffer's `dest` carries it: a 5-bit field,
so always one of 0 to 31 (R23, R71). -/
abbrev RegIdx := BitVec 5

end Sys2Proof
end

