-- ==== Sys2Proof/Syntax.lean ====
section
/-! DEFINITION. The instructions: one constructor per row of spec/opcode_table.json (R78), each carrying
every bit of its word that the row does not fix (R71), the ignored ones too (R81). -/

namespace Sys2Proof

/-- The instruction set of R78. Register operands are the 5-bit fields as they stand (R74). -/
inductive Instr where
  /-- Row 1: the all-zero word and no other (R210). -/
  | nop
  /-- Row 2: OpCode 0, FUNCT 0x20 (R171). -/
  | add (rd rs rt : RegIdx) (shamt : BitVec 5)
  /-- Row 3: OpCode 0, FUNCT 0x22 (R172). -/
  | sub (rd rs rt : RegIdx) (shamt : BitVec 5)
  /-- Row 4: OpCode 0, FUNCT 0x24 (R173). -/
  | and (rd rs rt : RegIdx) (shamt : BitVec 5)
  /-- Row 5: OpCode 0, FUNCT 0x25 (R174). -/
  | or (rd rs rt : RegIdx) (shamt : BitVec 5)
  /-- Row 6: OpCode 0, FUNCT 0x2A, the slot that computes nothing (R175). -/
  | slt (rd rs rt : RegIdx) (shamt : BitVec 5)
  /-- Row 7: OpCode 0 with any other FUNCT, the word not zero (R176). -/
  | rtypeOther (rd rs rt : RegIdx) (shamt : BitVec 5) (funct : BitVec 6)
  /-- Row 8: OpCode 35 (R190). -/
  | lw (rt : RegIdx) (offset : BitVec 16) (rs : RegIdx)
  /-- Row 9: OpCode 43 (R191). -/
  | sw (rt : RegIdx) (offset : BitVec 16) (rs : RegIdx)
  /-- Row 10: OpCode 4 (R200). -/
  | beq (rs rt : RegIdx) (offset : BitVec 16)
  /-- Row 11: any other OpCode; the other 26 bits are free (R211). -/
  | unknown (opcode : BitVec 6) (rest : BitVec 26)
deriving DecidableEq, Repr

end Sys2Proof
end

