-- ==== Sys2Proof/WellFormed.lean ====
section
/-! DEFINITION. Which terms of `Instr` stand for a word: the conditions of R78's table that the types of the
fields do not already say. -/

namespace Sys2Proof

/-- FUNCT is one of the five values R78 gives a row of their own (rows 2 to 6). -/
def namedFunct (funct : BitVec 6) : Bool :=
  funct == 0x20#6 || funct == 0x22#6 || funct == 0x24#6 || funct == 0x25#6 || funct == 0x2A#6

/-- OpCode is one of the four values R78 gives rows of their own (rows 2 to 10). -/
def namedOpCode (opcode : BitVec 6) : Bool :=
  opcode == 0#6 || opcode == 35#6 || opcode == 43#6 || opcode == 4#6

/-- R78: row 7 holds only words that rows 1 to 6 do not take (its FUNCT is no named one and the word is
not zero), row 11 only words whose OpCode is none of 0, 4, 35, 43. Every other row takes every value of
its fields. -/
def Instr.wf : Instr → Bool
  | .nop => true
  | .add _ _ _ _ => true
  | .sub _ _ _ _ => true
  | .and _ _ _ _ => true
  | .or _ _ _ _ => true
  | .slt _ _ _ _ => true
  | .rtypeOther rd rs rt shamt funct =>
    !namedFunct funct && !(rd == 0#5 && rs == 0#5 && rt == 0#5 && shamt == 0#5 && funct == 0#6)
  | .lw _ _ _ => true
  | .sw _ _ _ => true
  | .beq _ _ _ => true
  | .unknown opcode _ => !namedOpCode opcode

end Sys2Proof
end

