-- ==== Sys2Proof/Decode.lean ====
section
/-! DEFINITION. The instruction word: its fields (R71), the decoder (R73, R78), the encoders (R75, R76) and the
encoder of an instruction. -/

namespace Sys2Proof

/-! ### The fields of a word (R71): "all pure bit-slices of the word" -/

/-- OpCode, bits 31 to 26. -/
def opCodeOf (w : Word) : BitVec 6 := w.extractLsb' 26 6
/-- RS, bits 25 to 21. -/
def rsOf (w : Word) : RegIdx := w.extractLsb' 21 5
/-- RT, bits 20 to 16. -/
def rtOf (w : Word) : RegIdx := w.extractLsb' 16 5
/-- RD, bits 15 to 11. -/
def rdOf (w : Word) : RegIdx := w.extractLsb' 11 5
/-- SHAMT, bits 10 to 6; read by nothing (R81). -/
def shamtOf (w : Word) : BitVec 5 := w.extractLsb' 6 5
/-- FUNCT, bits 5 to 0. -/
def functOf (w : Word) : BitVec 6 := w.extractLsb' 0 6
/-- OFFSET, bits 15 to 0. -/
def offsetOf (w : Word) : BitVec 16 := w.extractLsb' 0 16
/-- TARGET, bits 25 to 0; "unused" (R81). -/
def targetOf (w : Word) : BitVec 26 := w.extractLsb' 0 26

/-- `sext_32` (R8, R74): bit 15 copied into bits 31 to 16. -/
def sext32 (v : BitVec 16) : Word := v.signExtend 32

/-! ### The decoder -/

/-- Rows 2 to 7 of R78: the words with OpCode 0, told apart by FUNCT alone. -/
def decodeRType (w : Word) : Instr :=
  if functOf w = 0x20#6 then .add (rdOf w) (rsOf w) (rtOf w) (shamtOf w)
  else if functOf w = 0x22#6 then .sub (rdOf w) (rsOf w) (rtOf w) (shamtOf w)
  else if functOf w = 0x24#6 then .and (rdOf w) (rsOf w) (rtOf w) (shamtOf w)
  else if functOf w = 0x25#6 then .or (rdOf w) (rsOf w) (rtOf w) (shamtOf w)
  else if functOf w = 0x2A#6 then .slt (rdOf w) (rsOf w) (rtOf w) (shamtOf w)
  else .rtypeOther (rdOf w) (rsOf w) (rtOf w) (shamtOf w) (functOf w)

/-- R78: which instruction a word is; "the first that holds decides". It is total and never fails (R73):
no word is refused. -/
def decode (w : Word) : Instr :=
  if w = 0#32 then .nop
  else if opCodeOf w = 0#6 then decodeRType w
  else if opCodeOf w = 35#6 then .lw (rtOf w) (offsetOf w) (rsOf w)
  else if opCodeOf w = 43#6 then .sw (rtOf w) (offsetOf w) (rsOf w)
  else if opCodeOf w = 4#6 then .beq (rsOf w) (rtOf w) (offsetOf w)
  else .unknown (opCodeOf w) (targetOf w)

/-! ### The encoders -/

/-- The R layout of R72 and R75, from fields of their own widths. -/
def packR (op : BitVec 6) (rs rt rd : RegIdx) (shamt : BitVec 5) (funct : BitVec 6) : Word :=
  op.setWidth 32 <<< 26 ||| rs.setWidth 32 <<< 21 ||| rt.setWidth 32 <<< 16 |||
    rd.setWidth 32 <<< 11 ||| shamt.setWidth 32 <<< 6 ||| funct.setWidth 32

/-- The I layout of R72 and R76, from fields of their own widths. -/
def packI (op : BitVec 6) (rs rt : RegIdx) (offset : BitVec 16) : Word :=
  op.setWidth 32 <<< 26 ||| rs.setWidth 32 <<< 21 ||| rt.setWidth 32 <<< 16 ||| offset.setWidth 32

/-- The J layout of R72, which no instruction of this hardware names; an unknown word is laid out so. -/
def packJ (op : BitVec 6) (target : BitVec 26) : Word :=
  op.setWidth 32 <<< 26 ||| target.setWidth 32

/-- `EncodeRType` (R75): an argument wider than its field is truncated to it (D23). -/
def encodeRType (op rs rt rd shamt funct : Nat) : Word :=
  packR (BitVec.ofNat 6 op) (BitVec.ofNat 5 rs) (BitVec.ofNat 5 rt) (BitVec.ofNat 5 rd)
    (BitVec.ofNat 5 shamt) (BitVec.ofNat 6 funct)

/-- `EncodeIType` (R76): OFFSET is the low 16 bits of the two's-complement offset; an argument wider than
its field is truncated to it (D23). -/
def encodeIType (op rs rt : Nat) (offset : Int) : Word :=
  packI (BitVec.ofNat 6 op) (BitVec.ofNat 5 rs) (BitVec.ofNat 5 rt) (BitVec.ofInt 16 offset)

/-- The word of an instruction, from the encodings R171 to R176, R190, R191, R200, R210 and R211 give. -/
def encode : Instr → Word
  | .nop => 0#32
  | .add rd rs rt shamt => packR 0#6 rs rt rd shamt 0x20#6
  | .sub rd rs rt shamt => packR 0#6 rs rt rd shamt 0x22#6
  | .and rd rs rt shamt => packR 0#6 rs rt rd shamt 0x24#6
  | .or rd rs rt shamt => packR 0#6 rs rt rd shamt 0x25#6
  | .slt rd rs rt shamt => packR 0#6 rs rt rd shamt 0x2A#6
  | .rtypeOther rd rs rt shamt funct => packR 0#6 rs rt rd shamt funct
  | .lw rt offset rs => packI 35#6 rs rt offset
  | .sw rt offset rs => packI 43#6 rs rt offset
  | .beq rs rt offset => packI 4#6 rs rt offset
  | .unknown opcode rest => packJ opcode rest

/-- The instruction the decoder reads from a word of the opcode table given as `nbits` bits of the number
`w`, the bits above them zero. Every instruction is one 32-bit word (R70), so more than 32 bits is no
instruction. -/
def decodeTableWord (nbits w : Nat) : Option Instr :=
  if nbits ≤ 32 then some (decode (BitVec.ofNat 32 (w % 2 ^ nbits))) else none

end Sys2Proof
end

