-- ==== Sys2Proof/Config.lean ====
section
/-! DEFINITION. What the spec leaves to the platform, and the free value. -/

namespace Sys2Proof.Config

/-- The largest capacity a memory may have, in 32-bit cells: R5 makes IMEM_WORDS and DMEM_WORDS positive
integers "at most 2^30". -/
def maxWords : Nat := 2 ^ 30

/-- The two parameters R5 leaves OPEN, each "a positive integer the model takes as an argument": configuration, and no
state of the hardware (R39). Every operation that needs a capacity takes it as an argument; none returns one (log 2). -/
structure Capacities where
  imemWords : Nat
  dmemWords : Nat
deriving DecidableEq, Repr

/-- The word a data memory read out of range delivers: R54 leaves it unspecified, "any 32-bit value,
drawn afresh at each occurrence" (D18, U7). `freeWord n` is the one delivered at the n-th occurrence.
It has no body, so nothing can be proved about its value. DESIGN CHOICE of form, safe (log 5). -/
opaque freeWord : Nat → Word

end Sys2Proof.Config
end

