-- ==== Sys2Proof/Machine/Params.lean ====
section
/-! DEFINITION. The capacities the machine is reset with. The spec leaves both OPEN (R5, D19: "positive
integers at most 2^30"); every definition and every statement of the model is about any capacity, and only
the state right after power-on needs a number. -/

namespace Sys2Proof.Machine

/-- IMEM_WORDS of the machine `State.reset` describes. DESIGN CHOICE, unsafe (log 3): the largest the spec
allows. -/
def imemWords : Nat := Config.maxWords

/-- DMEM_WORDS of the machine `State.reset` describes. DESIGN CHOICE, unsafe (log 3): the largest the spec
allows. -/
def dmemWords : Nat := Config.maxWords

end Sys2Proof.Machine
end

