-- ==== Sys2Proof/Machine/State.lean ====
section
/-! DEFINITION. The machine's state (spec/10_state.md R20 to R38) as plain data, and its reset value. -/

namespace Sys2Proof.Machine

/-- Why an operation of the machine or of its host port can fail. -/
inductive Fault where
  /-- R23, R222, R241: the host's register accessors answer it for an index outside 0 to 31. No step raises
  it: the machine itself raises nothing (R240). Safe: the spec gives this error. -/
  | invalidAddress
deriving DecidableEq, Repr

/-- Why the model declines. -/
inductive Refusal where
  /-- An instruction without a meaning. None is left; no arm of `exec` uses it. Safe. -/
  | notModelled (mnemonic : String)
  /-- R228 premise 3, D20: `step` declines a launch with MAX_PC >= 4 * IMEM_WORDS, under which a working cycle
  could fetch beyond the instruction memory. Safe: R56 says a model refuses such a launch. -/
  | launchPremise
  /-- R223, D20: the loader writes beyond IMEM_WORDS; "this spec gives such a write no meaning". Safe. -/
  | instructionStoreBound
deriving DecidableEq, Repr

/-- What one call of `Step()` answers to its caller (R139, the `halt` output of R220). -/
inductive Signal where
  | cont
  | halt
deriving DecidableEq, Repr

/-- A control vector: nine one-bit signals (R35). -/
structure Control where
  regDst : Bool
  aluOp1 : Bool
  aluOp0 : Bool
  aluSrc : Bool
  branch : Bool
  memRead : Bool
  memWrite : Bool
  regWrite : Bool
  memToReg : Bool
deriving DecidableEq, Repr

/-- The two slots of a pipeline buffer (R30): the read slot is the register's output, the write slot its
input. -/
structure Buffer (α : Type) where
  r : α
  w : α
deriving DecidableEq, Repr

/-- FD, Fetch to Decode (R31). -/
structure FdSlot where
  instr : Word
  pc4 : Word
deriving DecidableEq, Repr

/-- DX, Decode to Execute (R32). -/
structure DxSlot where
  instr : Word
  pc4 : Word
  rd1 : Word
  rd2 : Word
  imm : Word
  ctrl : Control
deriving DecidableEq, Repr

/-- XM, Execute to Memory (R33). -/
structure XmSlot where
  ctrl : Control
  rd2 : Word
  branchTarget : Word
  aluResult : Word
  zero : Bool
  dest : RegIdx
deriving DecidableEq, Repr

/-- MW, Memory to Write-Back (R34). -/
structure MwSlot where
  ctrl : Control
  aluResult : Word
  dest : RegIdx
  readData : Word
deriving DecidableEq, Repr

/-- A Memory Unit (R50): its cells by cell index. A cell that is not listed holds 0 (R57); no byte view exists (R58,
log 1). The form of the list is `Memory.wf`. Its capacity is an argument of every access (R39, R53). -/
structure Memory where
  cells : List (Nat × Word)
deriving DecidableEq, Repr

/-- The register file's storage (R21). Entry 0 is never read (R22). -/
abbrev RegFile := Vector Word 32

/-- The complete state of the hardware, R20's list, and the model's own `freeCount` (log 5). R39's things are not in
it: a cycle takes the capacities as an argument (`hardwareCycle`). -/
structure Hardware where
  /-- x[0..31] (R21). -/
  x : RegFile
  /-- The program counter: the byte address of the next fetch (R25). -/
  pc : Word
  /-- The halt bound the loader supplies; 0 means "failed to load" (R26). -/
  maxPc : Word
  /-- The ALU's retained result (R28). -/
  aluResult : Word
  fd : Buffer FdSlot
  dx : Buffer DxSlot
  xm : Buffer XmSlot
  mw : Buffer MwSlot
  /-- The instruction memory (R36). -/
  imem : Memory
  /-- The data memory (R37). -/
  dmem : Memory
  /-- How many unspecified words (R54) have been delivered so far; the model's own. -/
  freeCount : Nat
deriving DecidableEq, Repr

/-- What a call of `Step()` is a function of: the state of the hardware, and with it the argument R5 asks for, which
chooses the machine the state belongs to (log 2). -/
structure State extends Hardware where
  capacities : Config.Capacities
deriving DecidableEq, Repr

/-- A control vector of nine zeros: the reset content of a buffer, which is not the no-op vector (R38). -/
def Control.allZero : Control :=
  ⟨false, false, false, false, false, false, false, false, false⟩

/-- A memory as R38 leaves it: every cell 0. -/
def Memory.blank : Memory := ⟨[]⟩

/-- R38, R260: every piece of state is zero. -/
def Hardware.reset : Hardware :=
  let fd : FdSlot := ⟨0#32, 0#32⟩
  let dx : DxSlot := ⟨0#32, 0#32, 0#32, 0#32, 0#32, Control.allZero⟩
  let xm : XmSlot := ⟨Control.allZero, 0#32, 0#32, 0#32, false, 0#5⟩
  let mw : MwSlot := ⟨Control.allZero, 0#32, 0#5, 0#32⟩
  { x := Vector.replicate 32 0#32
    pc := 0#32
    maxPc := 0#32
    aluResult := 0#32
    fd := ⟨fd, fd⟩
    dx := ⟨dx, dx⟩
    xm := ⟨xm, xm⟩
    mw := ⟨mw, mw⟩
    imem := Memory.blank
    dmem := Memory.blank
    freeCount := 0 }

/-- A machine of the given capacities right after reset. -/
def State.resetWith (capacities : Config.Capacities) : State := { Hardware.reset with capacities := capacities }

/-- The machine right after reset (R38, R260), before the loader acts. -/
def State.reset : State := State.resetWith ⟨imemWords, dmemWords⟩

end Sys2Proof.Machine
end

