-- ==== Sys2Proof/Machine/Ops.lean ====
section
/-! DEFINITION. The named operations over registers, memories and buffers. The machine has no exception to take
and none to return from (R240, R247, R248), so there is no such operation. -/

namespace Sys2Proof.Machine

/-! ### General registers (R21 to R24) -/

/-- `x[i]` (R8, R22): index 0 reads zero, whatever was written. -/
def RegFile.read (x : RegFile) (i : RegIdx) : Word :=
  if i = 0#5 then 0#32 else x[i.toNat]'i.isLt

/-- `x[i] <- v` (R8, R22): dropped when i = 0. -/
def RegFile.write (x : RegFile) (i : RegIdx) (v : Word) : RegFile :=
  if i = 0#5 then x else x.set i.toNat v i.isLt

/-- `x[i]` of a state. -/
def Hardware.reg (h : Hardware) (i : RegIdx) : Word := RegFile.read h.x i

/-! ### Memories (R50 to R59) -/

/-- R51: the index of the cell a byte address selects, `addr[31:2]`; the two low bits take no part (R52). -/
def cellIndex (addr : Word) : Nat := (addr >>> 2).toNat

/-- R53: an access is in range when `addr[31:2] < capacity`, the address read as unsigned (D19). -/
def Memory.inRange (words : Nat) (addr : Word) : Bool := decide (cellIndex addr < words)

/-- The word a list of cells holds at an index; a cell that is not listed holds 0 (R57). -/
def Memory.lookup : List (Nat × Word) → Nat → Word
  | [], _ => 0#32
  | (j, u) :: rest, i => if i = j then u else Memory.lookup rest i

/-- A list of cells with index `i` holding `v`, kept in the canonical form: strictly rising indexes and no
entry equal to what an unlisted cell reads as. -/
def Memory.insert : List (Nat × Word) → Nat → Word → List (Nat × Word)
  | [], i, v => if v = 0#32 then [] else [(i, v)]
  | (j, u) :: rest, i, v =>
    if i < j then (if v = 0#32 then (j, u) :: rest else (i, v) :: (j, u) :: rest)
    else if i = j then (if v = 0#32 then rest else (i, v) :: rest)
    else (j, u) :: Memory.insert rest i v

/-- The content of cell `i`. -/
def Memory.cell (m : Memory) (i : Nat) : Word := Memory.lookup m.cells i

/-- The canonical form of a list of cells below a capacity, all indexes at least `lo`. -/
def Memory.cellsWf (words : Nat) : Nat → List (Nat × Word) → Bool
  | _, [] => true
  | lo, (i, v) :: rest =>
    decide (lo ≤ i) && decide (i < words) && decide (v ≠ 0#32) && Memory.cellsWf words (i + 1) rest

/-- A memory's form under a capacity: one R5 allows, and canonical cells inside it. -/
def Memory.wf (m : Memory) (words : Nat) : Bool :=
  decide (0 < words) && decide (words ≤ Config.maxWords) && Memory.cellsWf words 0 m.cells

/-- The word at a byte address of a memory, for an address in range (R51, R52). -/
def Memory.wordAt (m : Memory) (addr : Word) : Word := m.cell (cellIndex addr)

/-- `MemRead(addr, 4)` (R54): the cell, or the unspecified word number `n` when out of range. -/
def Memory.load (m : Memory) (words : Nat) (addr : Word) (n : Nat) : Word :=
  if Memory.inRange words addr then m.wordAt addr else Config.freeWord n

/-- How many unspecified words have been delivered after `MemRead(addr, 4)`, `n` before it (log 5). -/
def Memory.loadCount (words : Nat) (addr : Word) (n : Nat) : Nat :=
  if Memory.inRange words addr then n else n + 1

/-- `MemWrite(addr, 4, v)` (R55): the whole cell becomes `v`; out of range, nothing. -/
def Memory.store (m : Memory) (words : Nat) (addr v : Word) : Memory :=
  if Memory.inRange words addr then ⟨Memory.insert m.cells (cellIndex addr) v⟩ else m

/-- `IMemRead(addr)` (R56). The launch premise (R228) keeps every fetch of a working cycle in range. -/
def iMemRead (s : State) (addr : Word) : Word := s.imem.wordAt addr

/-! ### Buffers (R30) -/

/-- Flush of one buffer: the write slot's fields promoted into the read slot; the write slot stays (R30). -/
def Buffer.flush {α : Type} (b : Buffer α) : Buffer α := ⟨b.w, b.w⟩

/-! ### The guard, the launch premise and the answer of a call -/

/-- R131: a call of `Step()` works exactly when MAX_PC is not 0 and `pc <= MAX_PC`, unsigned (R26, C3). -/
def State.running (s : State) : Bool := decide (s.maxPc ≠ 0#32) && decide (s.pc ≤ s.maxPc)

/-- R228 premise 3 (D20): `MAX_PC < 4 * IMEM_WORDS`. -/
def State.launchable (s : State) : Bool := decide (s.maxPc.toNat < 4 * s.capacities.imemWords)

/-- The answer of a call that found `before` and left `after`: a stopped call answers "halt" (R131), a
working cycle by its updated program counter (R139, D8). -/
def answer (before after : State) : Signal :=
  if before.running then (if after.pc ≤ after.maxPc then .cont else .halt) else .halt

end Sys2Proof.Machine
end

