-- ==== Sys2Proof/Machine/Operands.lean ====
section
/-! DEFINITION. Every operand form: what each stage selects from a buffer slot, addresses and targets. -/

namespace Sys2Proof.Machine

/-- ALU operand A: read data 1 (R112). -/
def operandA (d : DxSlot) : Word := d.rd1

/-- ALU operand B: the extended offset when ALUSrc is 1, else read data 2 (R35, R112). -/
def operandB (d : DxSlot) : Word := if d.ctrl.aluSrc then d.imm else d.rd2

/-- The function code the ALU-control decoder sees: the low 6 bits of the latched offset (R105). -/
def functInput (d : DxSlot) : BitVec 6 := d.imm.extractLsb' 0 6

/-- The destination register's index: RD when RegDst is 1, else RT (R35, R136). -/
def destination (d : DxSlot) : RegIdx := if d.ctrl.regDst then rdOf d.instr else rtOf d.instr

/-- The branch target "PC4 + (sign-extended offset << 2)", modulo 2^32 (R136, R201). -/
def branchTarget (pc4 imm : Word) : Word := pc4 + imm <<< 2

/-- The one addressing mode, base plus sign-extended 16-bit byte displacement, modulo 2^32 (R192). -/
def effectiveAddress (base : Word) (offset : BitVec 16) : Word := base + sext32 offset

/-- What Write-Back writes: the loaded word when MemToReg is 1, else the ALU result (R134). -/
def writeBackValue (m : MwSlot) : Word := if m.ctrl.memToReg then m.readData else m.aluResult

/-- The address after an instruction's own, modulo 2^32 (R25, R138, D2). -/
def nextPc (pc : Word) : Word := pc + 4#32

end Sys2Proof.Machine
end

