-- ==== Sys2Proof/Machine/Flags.lean ====
section
/-! DEFINITION. The one flag, Zero (R27, R109), and the one decision made from it (R138). -/

namespace Sys2Proof.Machine

/-- Zero: "(result == 0), evaluated after every operation dispatch", on a retained result too (R27, R109). -/
def zeroFlag (result : Word) : Bool := result == 0#32

/-- The branch condition of the Fetch stage: Branch and Zero of XM's read slot (R138). -/
def branchTaken (m : XmSlot) : Bool := m.ctrl.branch && m.zero

end Sys2Proof.Machine
end

