-- ==== Sys2Proof/Machine/Decoders.lean ====
section
/-! DEFINITION. The control-vector decoder (R100 to R102) and the ALU-control decoder (R103 to R106). -/

namespace Sys2Proof.Machine

/-! The rows of R100, in its column order: RegDst, ALUOp1, ALUOp0, ALUSrc, Branch, MemRead, MemWrite, RegWrite,
MemToReg. -/

/-- The no-op row: all signals 0 but the ALUOp pair 1,1 (R101). -/
def Control.noOp : Control := ⟨false, true, true, false, false, false, false, false, false⟩
/-- The R-type row. -/
def Control.rType : Control := ⟨true, true, false, false, false, false, false, true, false⟩
/-- The lw row. -/
def Control.lw : Control := ⟨false, false, false, true, false, true, false, true, true⟩
/-- The sw row. -/
def Control.sw : Control := ⟨false, false, false, true, false, false, true, false, false⟩
/-- The beq row. -/
def Control.beq : Control := ⟨false, false, true, false, true, false, false, false, false⟩

/-- `ControlDecode(w)` (R100): "pure function of opcode (word==0 forces the no-op vector)". -/
def controlDecode (w : Word) : Control :=
  if w = 0#32 then Control.noOp
  else if opCodeOf w = 0#6 then Control.rType
  else if opCodeOf w = 35#6 then Control.lw
  else if opCodeOf w = 43#6 then Control.sw
  else if opCodeOf w = 4#6 then Control.beq
  else Control.noOp

/-- The ALU-control key `(ALUOp1 << 1) | ALUOp0` (R103, D13). -/
def aluKey (aluOp1 aluOp0 : Bool) : BitVec 2 := BitVec.ofBool aluOp1 ++ BitVec.ofBool aluOp0

/-- `ALUControl(ALUOp1, ALUOp0, funct)` (R104): the operation selector, 4 bits wide (R106, C1). -/
def aluControl (aluOp1 aluOp0 : Bool) (funct : BitVec 6) : BitVec 4 :=
  let key := aluKey aluOp1 aluOp0
  if key = 0#2 then 2#4
  else if key = 1#2 then 6#4
  else if key = 2#2 then
    if funct = 0x20#6 then 2#4
    else if funct = 0x22#6 then 6#4
    else if funct = 0x24#6 then 0#4
    else if funct = 0x25#6 then 1#4
    else if funct = 0x2A#6 then 7#4
    else 0#4
  else 8#4

end Sys2Proof.Machine
end

