-- ==== Sys2Proof/Machine/Alu.lean ====
section
/-! DEFINITION. The arithmetic unit (R107 to R110). -/

namespace Sys2Proof.Machine

/-- `ALU(op, A, B)`: the value of `alu_result` after the dispatch, `held` being its value before. Selectors 0,
1, 2 and 6 compute (R107); every other one retains (R108, C2: 7 does not compare; D16: 8 retains). -/
def alu (op : BitVec 4) (a b held : Word) : Word :=
  if op = 0#4 then a &&& b
  else if op = 1#4 then a ||| b
  else if op = 2#4 then a + b
  else if op = 6#4 then a - b
  else held

end Sys2Proof.Machine
end

