-- ==== Sys2Proof/Machine/Pipeline.lean ====
section
/-! DEFINITION. The working cycle: the seven sub-steps of `Step()` (R132 to R138), in R141's order. -/

namespace Sys2Proof.Machine

/-- Sub-step 1, Flush (R132): the clock edge of all four buffers. -/
def flush (h : Hardware) : Hardware :=
  { h with fd := h.fd.flush, dx := h.dx.flush, xm := h.xm.flush, mw := h.mw.flush }

/-- Sub-step 2, Forward-pass (R133, D10). -/
def forwardPass (h : Hardware) : Hardware :=
  { h with
    dx := { h.dx with w := { h.dx.w with instr := h.fd.r.instr, pc4 := h.fd.r.pc4 } }
    xm := { h.xm with w := { h.xm.w with ctrl := h.dx.r.ctrl, rd2 := h.dx.r.rd2 } }
    mw := { h.mw with
      w := { h.mw.w with ctrl := h.xm.r.ctrl, aluResult := h.xm.r.aluResult, dest := h.xm.r.dest } } }

/-- Sub-step 3, Write-Back stage (R134). -/
def writeBackStage (h : Hardware) : Hardware :=
  { h with
    x := if h.mw.r.ctrl.regWrite then RegFile.write h.x h.mw.r.dest (writeBackValue h.mw.r) else h.x }

/-- Sub-step 4, Memory stage (R135): the read before the write (D22); with MemRead 0 the read data is 0 (D17,
log 12). `words` is DMEM_WORDS. -/
def memoryStage (words : Nat) (h : Hardware) : Hardware :=
  { h with
    mw := { h.mw with
      w := { h.mw.w with
        readData := if h.xm.r.ctrl.memRead then h.dmem.load words h.xm.r.aluResult h.freeCount else 0#32 } }
    freeCount :=
      if h.xm.r.ctrl.memRead then Memory.loadCount words h.xm.r.aluResult h.freeCount else h.freeCount
    dmem := if h.xm.r.ctrl.memWrite then h.dmem.store words h.xm.r.aluResult h.xm.r.rd2 else h.dmem }

/-- The ALU dispatch of the Execute stage on a DX slot, `held` being `alu_result` before it (R105, R112,
R136). -/
def dispatchAlu (d : DxSlot) (held : Word) : Word :=
  alu (aluControl d.ctrl.aluOp1 d.ctrl.aluOp0 (functInput d)) (operandA d) (operandB d) held

/-- Sub-step 5, Execute stage (R136). -/
def executeStage (h : Hardware) : Hardware :=
  let result := dispatchAlu h.dx.r h.aluResult
  { h with
    aluResult := result
    xm := { h.xm with
      w := { h.xm.w with
        branchTarget := branchTarget h.dx.r.pc4 h.dx.r.imm
        aluResult := result
        zero := zeroFlag result
        dest := destination h.dx.r } } }

/-- Sub-step 6, Decode stage (R137): the register reads see sub-step 3's write. -/
def decodeStage (h : Hardware) : Hardware :=
  let w := h.fd.r.instr
  { h with
    dx := { h.dx with
      w := { h.dx.w with
        rd1 := h.reg (rsOf w)
        rd2 := h.reg (rtOf w)
        ctrl := controlDecode w
        imm := sext32 (offsetOf w) } } }

/-- Sub-step 7, Fetch stage (R138), `word` being what the instruction memory answers at `pc`. `FD.w.pc4` is the
fetch address plus 4 also when the branch is taken (D11, log 10); the branch is decided on XM's read slot as it
stands in this cycle (D12). -/
def fetchStage (word : Word) (h : Hardware) : Hardware :=
  { h with
    fd := { h.fd with w := { instr := word, pc4 := nextPc h.pc } }
    pc := if branchTaken h.xm.r then h.xm.r.branchTarget else nextPc h.pc }

/-- A working cycle of the hardware in which `word` is the instruction fetched: sub-steps 1 to 7, in order (R131, R141).
The capacities are its argument and no part of what it answers. -/
def hardwareCycle (capacities : Config.Capacities) (word : Word) (h : Hardware) : Hardware :=
  fetchStage word (decodeStage (executeStage
    (memoryStage capacities.dmemWords (writeBackStage (forwardPass (flush h))))))

/-- A working cycle in which `word` is the instruction fetched. -/
def workingCycle (word : Word) (s : State) : State :=
  { s with toHardware := hardwareCycle s.capacities word s.toHardware }

/-- A working cycle: the instruction fetched is the one the instruction memory holds at `pc` (R138, R141). -/
def cycle (s : State) : State := workingCycle (iMemRead s s.pc) s

end Sys2Proof.Machine
end

