-- ==== Sys2Proof/Machine/Reference.lean ====
section
/-! DEFINITION. What the reference machine of R275 shares: the state a program computes on, and the moves its
instructions are made of. That machine "executes the fetched instructions one at a time in the fetch order",
each reading registers and memory as all earlier ones left them. It is no part of `step` (log 19). -/

namespace Sys2Proof.Machine

/-- What one instruction after another computes on: registers, data memory, the retained ALU result (R274), and
the count of unspecified words (log 5). -/
structure Arch where
  x : RegFile
  dmem : Memory
  aluResult : Word
  freeCount : Nat
deriving DecidableEq, Repr

/-- That part of the machine's state. -/
def State.arch (s : State) : Arch := ⟨s.x, s.dmem, s.aluResult, s.freeCount⟩

/-- `x[i]`. -/
def Arch.reg (a : Arch) (i : RegIdx) : Word := RegFile.read a.x i

/-- An ALU result computed and written to a register (R170). -/
def Arch.compute (a : Arch) (rd : RegIdx) (result : Word) : Arch :=
  { a with aluResult := result, x := RegFile.write a.x rd result }

end Sys2Proof.Machine
end

