-- ==== Sys2Proof/Machine/Branch.lean ====
section
/-! DEFINITION. The one control transfer, `beq` (spec/44_branch.md R200 to R203): meaning and effect, as in
RType.lean. -/

namespace Sys2Proof.Machine

/-- `beq $rs,$rt,offset` (R200): fetched. -/
def execBeq (rs rt : RegIdx) (offset : BitVec 16) (s : State) : Host.Outcome State Fault Refusal :=
  .next (workingCycle (packI 4#6 rs rt offset) s)

/-- R200: no register is written; `alu_result` becomes the difference. Where the fetch goes on is R264's
recurrence, which the reference machine takes as given (R275). -/
def effectBeq (rs rt : RegIdx) (a : Arch) : Arch := { a with aluResult := a.reg rs - a.reg rt }

end Sys2Proof.Machine
end

