-- ==== Sys2Proof/Machine/LoadStore.lean ====
section
/-! DEFINITION. Loads and stores (spec/43_load_store.md R190 to R192): meaning and effect, as in RType.lean. -/

namespace Sys2Proof.Machine

/-- `lw $rt, offset($rs)` (R190): fetched. -/
def execLw (rt : RegIdx) (offset : BitVec 16) (rs : RegIdx) (s : State) :
    Host.Outcome State Fault Refusal :=
  .next (workingCycle (packI 35#6 rs rt offset) s)

/-- R190: `x[rt] <- MemRead(ea, 4)`; the address addition refreshes `alu_result` (R192). -/
def effectLw (words : Nat) (rt : RegIdx) (offset : BitVec 16) (rs : RegIdx) (a : Arch) : Arch :=
  let ea := effectiveAddress (a.reg rs) offset
  { a with
    x := RegFile.write a.x rt (a.dmem.load words ea a.freeCount)
    aluResult := ea
    freeCount := Memory.loadCount words ea a.freeCount }

/-- `sw $rt, offset($rs)` (R191): fetched. -/
def execSw (rt : RegIdx) (offset : BitVec 16) (rs : RegIdx) (s : State) :
    Host.Outcome State Fault Refusal :=
  .next (workingCycle (packI 43#6 rs rt offset) s)

/-- R191: `MemWrite(ea, 4, x[rt])`; the address addition refreshes `alu_result` (R192). -/
def effectSw (words : Nat) (rt : RegIdx) (offset : BitVec 16) (rs : RegIdx) (a : Arch) : Arch :=
  let ea := effectiveAddress (a.reg rs) offset
  { a with dmem := a.dmem.store words ea (a.reg rt), aluResult := ea }

end Sys2Proof.Machine
end

