-- ==== Sys2Proof/Machine/NopUnknown.lean ====
section
/-! DEFINITION. The no-op and the unknown opcodes (spec/45_nop_unknown.md R210, R211): meaning and effect, as in
RType.lean. -/

namespace Sys2Proof.Machine

/-- `nop` (R210): fetched. -/
def execNop (s : State) : Host.Outcome State Fault Refusal :=
  .next (workingCycle 0#32 s)

/-- R210: no register, no memory cell, not `alu_result`. -/
def effectNop (a : Arch) : Arch := a

/-- An unknown opcode (R211): fetched; "never an error, by design" (R79). -/
def execUnknown (opcode : BitVec 6) (rest : BitVec 26) (s : State) : Host.Outcome State Fault Refusal :=
  .next (workingCycle (packJ opcode rest) s)

/-- R211: as `nop`. -/
def effectUnknown (a : Arch) : Arch := a

end Sys2Proof.Machine
end

