-- ==== Sys2Proof/Machine/RType.lean ====
section
/-! DEFINITION. R-type instructions (spec/42_rtype.md R170 to R176). Each has its meaning `exec…`, the working cycle
that fetches it (Step s of R142, log 9), and `effect…`, what it does in the whole of its passage, executed alone
(R275). The stages of later cycles take what the word asks for from the buffers (R132 to R138). -/

namespace Sys2Proof.Machine

/-- `add $rd,$rs,$rt` (R171): fetched. -/
def execAdd (rd rs rt : RegIdx) (shamt : BitVec 5) (s : State) : Host.Outcome State Fault Refusal :=
  .next (workingCycle (packR 0#6 rs rt rd shamt 0x20#6) s)

/-- R171: `x[rd] <- (x[rs] + x[rt])[31:0]`. -/
def effectAdd (rd rs rt : RegIdx) (a : Arch) : Arch := a.compute rd (a.reg rs + a.reg rt)

/-- `sub $rd,$rs,$rt` (R172): fetched. -/
def execSub (rd rs rt : RegIdx) (shamt : BitVec 5) (s : State) : Host.Outcome State Fault Refusal :=
  .next (workingCycle (packR 0#6 rs rt rd shamt 0x22#6) s)

/-- R172: `x[rd] <- (x[rs] - x[rt])[31:0]`. -/
def effectSub (rd rs rt : RegIdx) (a : Arch) : Arch := a.compute rd (a.reg rs - a.reg rt)

/-- `and $rd,$rs,$rt` (R173): fetched. -/
def execAnd (rd rs rt : RegIdx) (shamt : BitVec 5) (s : State) : Host.Outcome State Fault Refusal :=
  .next (workingCycle (packR 0#6 rs rt rd shamt 0x24#6) s)

/-- R173: `x[rd] <- x[rs] & x[rt]`. -/
def effectAnd (rd rs rt : RegIdx) (a : Arch) : Arch := a.compute rd (a.reg rs &&& a.reg rt)

/-- `or $rd,$rs,$rt` (R174): fetched. -/
def execOr (rd rs rt : RegIdx) (shamt : BitVec 5) (s : State) : Host.Outcome State Fault Refusal :=
  .next (workingCycle (packR 0#6 rs rt rd shamt 0x25#6) s)

/-- R174: `x[rd] <- x[rs] | x[rt]`. -/
def effectOr (rd rs rt : RegIdx) (a : Arch) : Arch := a.compute rd (a.reg rs ||| a.reg rt)

/-- The `slt` slot (R175): fetched. -/
def execSlt (rd rs rt : RegIdx) (shamt : BitVec 5) (s : State) : Host.Outcome State Fault Refusal :=
  .next (workingCycle (packR 0#6 rs rt rd shamt 0x2A#6) s)

/-- R175: the ALU computes nothing, so `x[rd]` becomes the result that was already there; no comparison. -/
def effectSlt (rd : RegIdx) (a : Arch) : Arch := { a with x := RegFile.write a.x rd a.aluResult }

/-- R-type fallback (R176): fetched. -/
def execRtypeOther (rd rs rt : RegIdx) (shamt : BitVec 5) (funct : BitVec 6) (s : State) :
    Host.Outcome State Fault Refusal :=
  .next (workingCycle (packR 0#6 rs rt rd shamt funct) s)

/-- R176: `x[rd] <- x[rs] & x[rt]`, as R173. -/
def effectRtypeOther (rd rs rt : RegIdx) (a : Arch) : Arch := a.compute rd (a.reg rs &&& a.reg rt)

end Sys2Proof.Machine
end

