-- ==== Sys2Proof/Machine/Dispatch.lean ====
section
/-! DEFINITION. Which meaning each instruction has: one arm per constructor of Instr. -/

namespace Sys2Proof.Machine

def exec (i : Instr) (s : State) : Host.Outcome State Fault Refusal :=
  match i with
  | .nop => Sys2Proof.Machine.execNop s
  | .add rd rs rt shamt => Sys2Proof.Machine.execAdd rd rs rt shamt s
  | .sub rd rs rt shamt => Sys2Proof.Machine.execSub rd rs rt shamt s
  | .and rd rs rt shamt => Sys2Proof.Machine.execAnd rd rs rt shamt s
  | .or rd rs rt shamt => Sys2Proof.Machine.execOr rd rs rt shamt s
  | .slt rd rs rt shamt => Sys2Proof.Machine.execSlt rd rs rt shamt s
  | .rtypeOther rd rs rt shamt funct => Sys2Proof.Machine.execRtypeOther rd rs rt shamt funct s
  | .lw rt offset rs => Sys2Proof.Machine.execLw rt offset rs s
  | .sw rt offset rs => Sys2Proof.Machine.execSw rt offset rs s
  | .beq rs rt offset => Sys2Proof.Machine.execBeq rs rt offset s
  | .unknown opcode rest => Sys2Proof.Machine.execUnknown opcode rest s

end Sys2Proof.Machine
end

