-- ==== Sys2Proof/Machine/HostPort.lean ====
section
/-! DEFINITION. The interface to the outside (spec/50_host_interface.md): reset, the loader's and the host's
accessors, snapshots. None of it is a move of the machine: a run is `step` after `step` (R227, log 15). -/

namespace Sys2Proof.Machine

/-! ### Reset (R260) -/

/-- The `reset` input (R220, R260): every piece of state at its reset value. The capacities are what the platform
built (R5) and stay; the count of unspecified words goes on (log 17). -/
def resetMachine (s : State) : State :=
  { State.resetWith s.capacities with freeCount := s.freeCount }

/-! ### Register accessors (R22, R23, R222) -/

/-- The index a host's register access names, where it is one of 0 to 31. -/
def hostIndex (i : Int) : Option RegIdx :=
  if 0 ≤ i ∧ i < 32 then some (BitVec.ofInt 5 i) else none

/-- `RegRead(index)` (R222). -/
def hostRegRead (i : Int) (s : State) : Except Fault Word :=
  match hostIndex i with
  | some r => .ok (s.reg r)
  | none => .error .invalidAddress

/-- `RegWrite(index, word)` (R222); a failed access stores nothing (D28). -/
def hostRegWrite (i : Int) (v : Word) (s : State) : Host.Outcome State Fault Refusal :=
  match hostIndex i with
  | some r => .next { s with x := RegFile.write s.x r v }
  | none => .fault .invalidAddress

/-! ### Memory accessors (R223) -/

/-- `Read(address)` on the data memory: out of range it returns an unspecified word (R54, R223, log 5). -/
def hostDataRead (addr : Word) (s : State) : Word × State :=
  (s.dmem.load s.capacities.dmemWords addr s.freeCount,
    { s with freeCount := Memory.loadCount s.capacities.dmemWords addr s.freeCount })

/-- `Write(address, word)` on the data memory: out of range it is swallowed (R55, R223). -/
def hostDataWrite (addr v : Word) (s : State) : State :=
  { s with dmem := s.dmem.store s.capacities.dmemWords addr v }

/-- `Read(address)` on the instruction memory, as on the data memory (R223). -/
def hostInstrRead (addr : Word) (s : State) : Word × State :=
  (s.imem.load s.capacities.imemWords addr s.freeCount,
    { s with freeCount := Memory.loadCount s.capacities.imemWords addr s.freeCount })

/-- `Write(address, word)` on the instruction memory: beyond IMEM_WORDS "this spec gives such a write no
meaning" (R223, D20), so it is refused. -/
def hostInstrWrite (addr v : Word) (s : State) : Host.Outcome State Fault Refusal :=
  if Memory.inRange s.capacities.imemWords addr then
    .next { s with imem := s.imem.store s.capacities.imemWords addr v }
  else .refused .instructionStoreBound

/-- Setting MAX_PC (R224). -/
def setMaxPc (v : Word) (s : State) : State := { s with maxPc := v }

/-! ### The loader (R221) -/

/-- One access of the loader before the first `Step()`. -/
inductive LoaderAction where
  | regWrite (index : Int) (v : Word)
  | instrWrite (addr v : Word)
  | dataWrite (addr v : Word)
  | setMaxPc (v : Word)
deriving DecidableEq, Repr

/-- One access of the loader. -/
def loaderAct (a : LoaderAction) (s : State) : Host.Outcome State Fault Refusal :=
  match a with
  | .regWrite i v => hostRegWrite i v s
  | .instrWrite addr v => hostInstrWrite addr v s
  | .dataWrite addr v => .next (hostDataWrite addr v s)
  | .setMaxPc v => .next (setMaxPc v s)

/-- The loader's accesses one after another, stopping at the first that fails. -/
def loaderRun : List LoaderAction → State → Host.Outcome State Fault Refusal
  | [], s => .next s
  | a :: rest, s =>
    match loaderAct a s with
    | .next t => loaderRun rest t
    | .fault f => .fault f
    | .refused r => .refused r

/-- A program "from byte address 0 of the instruction memory upward, one word per instruction" (R221, R60): the
accesses that place its words from `addr` on. -/
def placeProgram : Word → List Word → List LoaderAction
  | _, [] => []
  | addr, w :: rest => .instrWrite addr w :: placeProgram (addr + 4) rest

/-! ### Snapshots (R226) -/

/-- What the renderer sees between cycles: everything of R20 but `alu_result` (R226). -/
structure Snapshot where
  pc : Word
  maxPc : Word
  fd : Buffer FdSlot
  dx : Buffer DxSlot
  xm : Buffer XmSlot
  mw : Buffer MwSlot
  x : RegFile
  imem : Memory
  dmem : Memory
deriving DecidableEq, Repr

/-- The read-only snapshot of R226. -/
def snapshot (h : Hardware) : Snapshot :=
  ⟨h.pc, h.maxPc, h.fd, h.dx, h.xm, h.mw, h.x, h.imem, h.dmem⟩

/-! ### Placing the next instruction -/

/-- The highest MAX_PC a launch may have, `4 * IMEM_WORDS - 1` (R228 premise 3). -/
def topMaxPc (s : State) : Word := BitVec.ofNat 32 (4 * s.capacities.imemWords - 1)

/-- `word` placed at `pc` by the loader's accesses: the cell at `pc` (R221), and MAX_PC where the one that stands
would stop the next call (R131) or break the launch premise (R228); log 6. -/
def placeNext (word : Word) (s : State) : State :=
  { s with
    imem := s.imem.store s.capacities.imemWords s.pc word
    maxPc := if s.running && s.launchable then s.maxPc else topMaxPc s }

end Sys2Proof.Machine
end

