-- ==== Sys2Proof/Machine/Step.lean ====
section
/-! DEFINITION. One call of `Step()`: one clock cycle (R130, R131, R141). -/

namespace Sys2Proof.Machine

/-- One call of `Step()`. The guard first: a stopped call changes nothing at all (R131, D7, log 8). Then the launch
premise (R228, log 7). Then the working cycle that fetches the instruction at `pc` (R138, R141). -/
def step (s : State) : Host.Outcome State Fault Refusal :=
  if s.running then
    if s.launchable then exec (decode (iMemRead s s.pc)) s else .refused .launchPremise
  else .next s

/-- One call of `Step()` with the answer its caller gets (R139, R225). -/
def stepAnswer (s : State) : Host.Outcome (State × Signal) Fault Refusal :=
  match step s with
  | .next t => .next (t, answer s t)
  | .fault f => .fault f
  | .refused r => .refused r

/-- `s` with the instruction whose bits are `w` (the low `nbits` of them) placed where `step` fetches next. -/
def State.withFetchWord (s : State) (nbits w : Nat) : State :=
  placeNext (BitVec.ofNat 32 (w % 2 ^ nbits)) s

end Sys2Proof.Machine
end

