-- ==== Sys2Proof/Machine/Caller.lean ====
section
/-! DEFINITION. The caller outside the core, which clocks the machine (R220, R225, R229). -/

namespace Sys2Proof.Machine

/-- The caller's loop (R225), cut off after `n` calls: `Step()` until it answers "halt". The answer is the state after the
first call that answers it, the end of the run (R229); or the state the last completed call left, with "continue", where the
caller stops early. -/
def callerLoop : Nat → State → Host.Outcome (State × Signal) Fault Refusal
  | 0, s => .next (s, .cont)
  | n + 1, s =>
    match stepAnswer s with
    | .next (t, .halt) => .next (t, .halt)
    | .next (t, .cont) => callerLoop n t
    | .fault f => .fault f
    | .refused r => .refused r

end Sys2Proof.Machine
end

