-- ==== Sys2Proof/Machine/Effect.lean ====
section
/-! DEFINITION. The reference machine of R275: the effect of each instruction, executed alone, and the registers
it uses and writes (R267). -/

namespace Sys2Proof.Machine

/-- One instruction of the reference machine, whose data memory has `words` cells. -/
def effect (words : Nat) (i : Instr) (a : Arch) : Arch :=
  match i with
  | .nop => effectNop a
  | .add rd rs rt _ => effectAdd rd rs rt a
  | .sub rd rs rt _ => effectSub rd rs rt a
  | .and rd rs rt _ => effectAnd rd rs rt a
  | .or rd rs rt _ => effectOr rd rs rt a
  | .slt rd _ _ _ => effectSlt rd a
  | .rtypeOther rd rs rt _ _ => effectRtypeOther rd rs rt a
  | .lw rt offset rs => effectLw words rt offset rs a
  | .sw rt offset rs => effectSw words rt offset rs a
  | .beq rs rt _ => effectBeq rs rt a
  | .unknown _ _ => effectUnknown a

/-- The register an instruction writes (R267: "the R-type instructions (destination RD) and `lw` (destination
RT)"). -/
def writtenReg : Instr → Option RegIdx
  | .nop => none
  | .add rd _ _ _ => some rd
  | .sub rd _ _ _ => some rd
  | .and rd _ _ _ => some rd
  | .or rd _ _ _ => some rd
  | .slt rd _ _ _ => some rd
  | .rtypeOther rd _ _ _ _ => some rd
  | .lw rt _ _ => some rt
  | .sw _ _ _ => none
  | .beq _ _ _ => none
  | .unknown _ _ => none

/-- The registers an instruction uses in the sense of R267, "every use of RS and RT that matters". The `slt` slot
reads its two and ignores them (R175), so it uses none. -/
def usedRegs : Instr → List RegIdx
  | .nop => []
  | .add _ rs rt _ => [rs, rt]
  | .sub _ rs rt _ => [rs, rt]
  | .and _ rs rt _ => [rs, rt]
  | .or _ rs rt _ => [rs, rt]
  | .slt _ _ _ _ => []
  | .rtypeOther _ rs rt _ _ => [rs, rt]
  | .lw _ _ rs => [rs]
  | .sw rt _ rs => [rs, rt]
  | .beq rs rt _ => [rs, rt]
  | .unknown _ _ => []

end Sys2Proof.Machine
end

