-- ==== Sys2Proof/Safety.lean ====
section
/-! DEFINITION. The terms in which claims speak of runs: a working call, a launch, the invariant, the passage of one
instruction through the pipeline, and the reference machine's run beside the pipeline's. -/

namespace Sys2Proof.Machine

/-! ### Runs -/

/-- The next call of `Step()` is a working cycle: it passes the guard (R131) and the launch premise holds (R228). -/
abbrev Working (s : State) : Prop := s.running = true ∧ s.launchable = true

/-- The state after `n` working cycles. -/
def cycles : Nat → State → State
  | 0, s => s
  | n + 1, s => cycle (cycles n s)

/-- The state a launch starts from (R228 premises 1, 3 and 4): reset has been applied and then only the loader has
acted, so all but registers, MAX_PC and memory contents stands at its reset value; MAX_PC keeps the launch premise.
(`freeCount` is the model's own and may be anything.) -/
def Launched (s : State) : Prop :=
  s = { State.resetWith s.capacities with
        x := s.x, maxPc := s.maxPc, imem := s.imem, dmem := s.dmem, freeCount := s.freeCount } ∧
    s.imem.wf s.capacities.imemWords = true ∧ s.dmem.wf s.capacities.dmemWords = true ∧ s.launchable = true

/-! ### The invariant -/

/-- A byte address is a multiple of 4. -/
abbrev Aligned (a : Word) : Prop := a.extractLsb' 0 2 = 0#2

/-- A control vector a run can hold: a row of R100, or the reset content (R212). -/
def Control.legal (c : Control) : Bool :=
  c == Control.allZero || c == Control.noOp || c == Control.rType || c == Control.lw ||
    c == Control.sw || c == Control.beq

/-- What a DX slot keeps: `pc4` a multiple of 4, `imm` the extension of its own word's offset (R105), a legal
control vector. -/
def DxSlot.Ok (d : DxSlot) : Prop :=
  Aligned d.pc4 ∧ d.imm = sext32 (offsetOf d.instr) ∧ d.ctrl.legal = true

/-- What an XM slot keeps: the target a multiple of 4 (R25), Zero set on a zero result only (R27), a legal control
vector. -/
def XmSlot.Ok (m : XmSlot) : Prop :=
  Aligned m.branchTarget ∧ (m.zero = true → m.aluResult = 0#32) ∧ m.ctrl.legal = true

/-- What an MW slot keeps: read data 0 unless a load was in the Memory stage (R135, D17), a legal control vector. -/
def MwSlot.Ok (m : MwSlot) : Prop :=
  (m.ctrl.memRead = false → m.readData = 0#32) ∧ m.ctrl.legal = true

/-- The invariant of the machine: both memories canonical and of a capacity R5 allows, the hard-wired register's
storage zero (R22), the program counter a multiple of 4 (R25) and what is to become it too, every slot of every
buffer well formed. -/
structure State.Inv (s : State) : Prop where
  imemWf : s.imem.wf s.capacities.imemWords = true
  dmemWf : s.dmem.wf s.capacities.dmemWords = true
  zeroRegister : s.x[0] = 0#32
  pcAligned : Aligned s.pc
  fdRead : Aligned s.fd.r.pc4
  fdWrite : Aligned s.fd.w.pc4
  dxRead : s.dx.r.Ok
  dxWrite : s.dx.w.Ok
  xmRead : s.xm.r.Ok
  xmWrite : s.xm.w.Ok
  mwRead : s.mw.r.Ok
  mwWrite : s.mw.w.Ok

/-! ### The passage of one instruction (R142) -/

/-- `exec i s` and the four calls of `Step()` after it: Fetch in Step s, Decode in s + 1, Execute in s + 2, Memory in
s + 3, Write-Back in s + 4 (R142). `s1` to `s5` are the states after those Steps. -/
structure Passage (i : Instr) (s s1 s2 s3 s4 s5 : State) : Prop where
  fetch : exec i s = .next s1
  decode : step s1 = .next s2
  execute : step s2 = .next s3
  memory : step s3 = .next s4
  writeBack : step s4 = .next s5

/-- The four calls after the one that fetches `i` at `s` are working cycles (R265: "Step s + 4 is a working cycle").
It is a condition on `s` alone. -/
def StaysWorking (i : Instr) (s : State) : Prop :=
  let s1 := workingCycle (encode i) s
  Working s1 ∧ Working (cycle s1) ∧ Working (cycle (cycle s1)) ∧ Working (cycle (cycle (cycle s1)))

/-- What an R-type instruction does in its passage (R170): `result` is what its ALU dispatch leaves in `alu_result`
in Step s + 2 and what register `rd` holds after Step s + 4; no store, no steering of `pc`, no other register. -/
structure RTypeCourse (rd : RegIdx) (result : Word) (s2 s3 s4 s5 : State) : Prop where
  control : s2.dx.w.ctrl = Control.rType
  refreshed : s3.aluResult = result
  latched : s3.xm.w.aluResult = result
  zero : s3.xm.w.zero = zeroFlag result
  dest : s3.xm.w.dest = rd
  pc : s4.pc = nextPc s3.pc
  memory : s4.dmem = s3.dmem
  free : s4.freeCount = s3.freeCount
  written : s5.reg rd = if rd = 0#5 then 0#32 else result
  others : ∀ r, r ≠ rd → s5.reg r = s4.reg r

/-- What an instruction with the no-op control vector does in its passage (R210, R211): nothing but buffer
fields. -/
structure NoOpCourse (s2 s3 s4 s5 : State) : Prop where
  control : s2.dx.w.ctrl = Control.noOp
  retained : s3.aluResult = s2.aluResult
  latched : s3.xm.w.aluResult = s2.aluResult
  zero : s3.xm.w.zero = zeroFlag s2.aluResult
  pc : s4.pc = nextPc s3.pc
  memory : s4.dmem = s3.dmem
  free : s4.freeCount = s3.freeCount
  registers : s5.x = s4.x

/-! ### The loader's accesses -/

/-- Two accesses of the loader touch different things: "each touches one cell, one register or MAX_PC" (R221). -/
def DifferentTargets : LoaderAction → LoaderAction → Prop
  | .regWrite i _, .regWrite j _ => i ≠ j
  | .instrWrite a _, .instrWrite b _ => cellIndex a ≠ cellIndex b
  | .dataWrite a _, .dataWrite b _ => cellIndex a ≠ cellIndex b
  | .setMaxPc _, .setMaxPc _ => False
  | _, _ => True

/-! ### The reference machine beside the pipeline (R275) -/

/-- Instruction `k` of a run from `s`, in fetch order: the one fetched in Step k + 1 (R9). -/
def fetched (s : State) (k : Nat) : Instr := decode (iMemRead (cycles k s) (cycles k s).pc)

/-- The reference machine of R275 after instructions 0 to k - 1 of the run from `s`. -/
def reference (s : State) : Nat → Arch
  | 0 => s.arch
  | k + 1 => effect s.capacities.dmemWords (fetched s k) (reference s k)

/-- No instruction up to `k` uses a register that one of the two instructions before it writes (R275's premise, with
R267's "use"; register 0 is written by nobody, R22). -/
def HazardFree (s : State) (k : Nat) : Prop :=
  ∀ j d, j + d ≤ k → (d = 1 ∨ d = 2) →
    ∀ r ∈ usedRegs (fetched s (j + d)), r ≠ 0#5 → writtenReg (fetched s j) ≠ some r

end Sys2Proof.Machine
end

