-- ==== Sys2Proof/Certificates/Slice0/Obligations.lean ====
section
/-! DEFINITION. The statements for the provers. Each docstring names the rule of spec/ it formalises; where a clause
rests on a choice of the model or on a decision the spec marks as its own, it says so.

How a cycle is read off two states: after one call of `Step()` from `s`, the read slots of that cycle are the write
slots `s` came with (R132), so `s.mw.w`, `s.xm.w`, `s.dx.w` and `s.fd.w` below are what R134 to R138 call `MW.r`,
`XM.r`, `DX.r` and `FD.r`. -/

open Sys2Proof Sys2Proof.Machine

/-! ### The instruction word -/

/-- A step runs the decoded instruction: when the word at `pc` decodes to `i`, a working call of `Step()` is `exec i`,
and that word is what Fetch latches. Around `exec` the step adds only the guard and the launch premise, which `Working`
names. -/
def Obligations.StepRunsDecodedInstruction : Prop :=
  ∀ (s : State) (i : Instr), Working s → decode (iMemRead s s.pc) = i →
    step s = exec i s ∧ ∃ t, step s = .next t ∧ t.fd.w.instr = iMemRead s s.pc

/-- Words written out from the spec's encodings decode to the instructions they stand for (R171 to R176, R190, R191,
R200, R210, R211; spec/95_test_vectors.md V1). -/
def Obligations.SpecWordsDecode : Prop :=
  decode 0x00000000#32 = .nop ∧
  decode 0x00221820#32 = .add 3#5 1#5 2#5 0#5 ∧
  decode 0x00221822#32 = .sub 3#5 1#5 2#5 0#5 ∧
  decode 0x00221824#32 = .and 3#5 1#5 2#5 0#5 ∧
  decode 0x00221825#32 = .or 3#5 1#5 2#5 0#5 ∧
  decode 0x0022182A#32 = .slt 3#5 1#5 2#5 0#5 ∧
  decode 0x000208C0#32 = .rtypeOther 1#5 0#5 2#5 3#5 0#6 ∧
  decode 0x8CC5FFFC#32 = .lw 5#5 0xFFFC#16 6#5 ∧
  decode 0xAC870008#32 = .sw 7#5 8#16 4#5 ∧
  decode 0x1022FFFD#32 = .beq 1#5 2#5 0xFFFD#16 ∧
  decode 0x20010005#32 = .unknown 8#6 0x0010005#26

/-- Decode and encode agree on every well-formed instruction, at every value of every field (R72, R78). -/
def Obligations.DecodeEncodeAgree : Prop :=
  ∀ i : Instr, i.wf = true → decode (encode i) = i

/-- Every one of the 2^32 words decodes to a well-formed instruction (R73), and every well-formed instruction is the
decoding of exactly one word: the decoder drops no bit. -/
def Obligations.WordsAndInstructionsCorrespond : Prop :=
  (∀ w : Word, (decode w).wf = true) ∧
    ∀ i : Instr, i.wf = true → ∃ w, decode w = i ∧ ∀ v, decode v = i → v = w

/-- R77 with the bit positions of R71: field extraction matches the documented slices, and encoding arguments that
fit their fields and extracting them again gives them back. -/
def Obligations.EncoderFieldsReadBack : Prop :=
  (∀ w : Word,
    (opCodeOf w).toNat = w.toNat / 2 ^ 26 ∧
    (rsOf w).toNat = w.toNat / 2 ^ 21 % 2 ^ 5 ∧
    (rtOf w).toNat = w.toNat / 2 ^ 16 % 2 ^ 5 ∧
    (rdOf w).toNat = w.toNat / 2 ^ 11 % 2 ^ 5 ∧
    (shamtOf w).toNat = w.toNat / 2 ^ 6 % 2 ^ 5 ∧
    (functOf w).toNat = w.toNat % 2 ^ 6 ∧
    (offsetOf w).toNat = w.toNat % 2 ^ 16 ∧
    (targetOf w).toNat = w.toNat % 2 ^ 26) ∧
  (∀ op rs rt rd shamt funct : Nat,
    op < 64 → rs < 32 → rt < 32 → rd < 32 → shamt < 32 → funct < 64 →
    (opCodeOf (encodeRType op rs rt rd shamt funct)).toNat = op ∧
    (rsOf (encodeRType op rs rt rd shamt funct)).toNat = rs ∧
    (rtOf (encodeRType op rs rt rd shamt funct)).toNat = rt ∧
    (rdOf (encodeRType op rs rt rd shamt funct)).toNat = rd ∧
    (shamtOf (encodeRType op rs rt rd shamt funct)).toNat = shamt ∧
    (functOf (encodeRType op rs rt rd shamt funct)).toNat = funct) ∧
  (∀ (op rs rt : Nat) (offset : Int),
    op < 64 → rs < 32 → rt < 32 → -32768 ≤ offset → offset ≤ 32767 →
    (opCodeOf (encodeIType op rs rt offset)).toNat = op ∧
    (rsOf (encodeIType op rs rt offset)).toNat = rs ∧
    (rtOf (encodeIType op rs rt offset)).toNat = rt ∧
    (sext32 (offsetOf (encodeIType op rs rt offset))).toInt = offset)

/-- The opcode map of R78, row by row in its order, with the fields' bit positions written as numbers. (R78 marks the
table as the composition of two decoders, its own derivation.) -/
def Obligations.OpcodeMapRows : Prop :=
  ∀ w : Word,
    let op := w.toNat / 2 ^ 26
    let funct := w.toNat % 2 ^ 6
    let rs : RegIdx := BitVec.ofNat 5 (w.toNat / 2 ^ 21)
    let rt : RegIdx := BitVec.ofNat 5 (w.toNat / 2 ^ 16)
    let rd : RegIdx := BitVec.ofNat 5 (w.toNat / 2 ^ 11)
    let shamt : BitVec 5 := BitVec.ofNat 5 (w.toNat / 2 ^ 6)
    let offset : BitVec 16 := BitVec.ofNat 16 w.toNat
    (w = 0#32 → decode w = .nop) ∧
    (op = 0 → funct = 0x20 → decode w = .add rd rs rt shamt) ∧
    (op = 0 → funct = 0x22 → decode w = .sub rd rs rt shamt) ∧
    (op = 0 → funct = 0x24 → decode w = .and rd rs rt shamt) ∧
    (op = 0 → funct = 0x25 → decode w = .or rd rs rt shamt) ∧
    (op = 0 → funct = 0x2A → decode w = .slt rd rs rt shamt) ∧
    (op = 0 → w ≠ 0#32 → funct ≠ 0x20 → funct ≠ 0x22 → funct ≠ 0x24 → funct ≠ 0x25 → funct ≠ 0x2A →
      decode w = .rtypeOther rd rs rt shamt (BitVec.ofNat 6 funct)) ∧
    (op = 35 → decode w = .lw rt offset rs) ∧
    (op = 43 → decode w = .sw rt offset rs) ∧
    (op = 4 → decode w = .beq rs rt offset) ∧
    (op ≠ 0 → op ≠ 35 → op ≠ 43 → op ≠ 4 →
      decode w = .unknown (BitVec.ofNat 6 op) (BitVec.ofNat 26 w.toNat))

/-! ### The decoders and the ALU -/

/-- R100: the control-vector table, the nine signals of a row in the order RegDst, ALUOp1, ALUOp0, ALUSrc, Branch,
MemRead, MemWrite, RegWrite, MemToReg; the first case that holds decides, so the zero word and every unknown opcode get
the no-op vector (R101, R102). -/
def Obligations.ControlVectorTable : Prop :=
  ∀ w : Word,
    controlDecode w =
      if w = 0#32 then ⟨false, true, true, false, false, false, false, false, false⟩
      else if w.extractLsb' 26 6 = 0#6 then ⟨true, true, false, false, false, false, false, true, false⟩
      else if w.extractLsb' 26 6 = 35#6 then ⟨false, false, false, true, false, true, false, true, true⟩
      else if w.extractLsb' 26 6 = 43#6 then ⟨false, false, false, true, false, false, true, false, false⟩
      else if w.extractLsb' 26 6 = 4#6 then ⟨false, false, true, false, true, false, false, false, false⟩
      else ⟨false, true, true, false, false, false, false, false, false⟩

/-- R24, R66 and R35: which words write a register, read or write data memory, or steer `pc`; and no word reads and
writes memory together. -/
def Obligations.SignalsBelongToTheirOpcodes : Prop :=
  ∀ w : Word,
    ((controlDecode w).regWrite = true ↔ (opCodeOf w = 0#6 ∧ w ≠ 0#32) ∨ opCodeOf w = 35#6) ∧
    ((controlDecode w).memRead = true ↔ opCodeOf w = 35#6) ∧
    ((controlDecode w).memWrite = true ↔ opCodeOf w = 43#6) ∧
    ((controlDecode w).branch = true ↔ opCodeOf w = 4#6) ∧
    ((controlDecode w).memToReg = true → (controlDecode w).memRead = true) ∧
    ¬((controlDecode w).memRead = true ∧ (controlDecode w).memWrite = true)

/-- R104: the ALU-control decoder's table. -/
def Obligations.AluControlTable : Prop :=
  ∀ funct : BitVec 6,
    aluControl false false funct = 2#4 ∧
    aluControl false true funct = 6#4 ∧
    aluControl true false 0x20#6 = 2#4 ∧
    aluControl true false 0x22#6 = 6#4 ∧
    aluControl true false 0x24#6 = 0#4 ∧
    aluControl true false 0x25#6 = 1#4 ∧
    aluControl true false 0x2A#6 = 7#4 ∧
    (funct ≠ 0x20#6 → funct ≠ 0x22#6 → funct ≠ 0x24#6 → funct ≠ 0x25#6 → funct ≠ 0x2A#6 →
      aluControl true false funct = 0#4) ∧
    aluControl true true funct = 8#4

/-- R107: what the four implemented selectors compute, the source's examples with them. -/
def Obligations.AluComputes : Prop :=
  (∀ a b held : Word,
    (∀ k, (alu 0#4 a b held).getLsbD k = (a.getLsbD k && b.getLsbD k)) ∧
    (∀ k, (alu 1#4 a b held).getLsbD k = (a.getLsbD k || b.getLsbD k)) ∧
    (alu 2#4 a b held).toNat = (a.toNat + b.toNat) % 2 ^ 32 ∧
    ((alu 6#4 a b held).toNat : Int) = ((a.toNat : Int) - b.toNat) % 2 ^ 32) ∧
  (∀ held : Word,
    alu 2#4 0x7FFFFFFF#32 1#32 held = 0x80000000#32 ∧ alu 6#4 0#32 1#32 held = 0xFFFFFFFF#32 ∧
    alu 2#4 5#32 3#32 held = 8#32 ∧ alu 6#4 5#32 3#32 held = 2#32 ∧
    zeroFlag (alu 6#4 6#32 6#32 held) = true ∧
    alu 0#4 0xF0#32 0x0F#32 held = 0#32 ∧ alu 1#4 0xF0#32 0x0F#32 held = 0xFF#32)

/-- R108, R109: every other selector retains the result, and Zero is evaluated on it. That 7 does not compare and that
8 retains are the spec's decisions D15 and D16 (log 13), not the source's plain words. -/
def Obligations.AluRetainsOnOtherSelectors : Prop :=
  ∀ (op : BitVec 4) (a b held : Word), op ≠ 0#4 → op ≠ 1#4 → op ≠ 2#4 → op ≠ 6#4 →
    alu op a b held = held ∧ (zeroFlag (alu op a b held) = true ↔ held = 0#32)

/-! ### Registers and memories -/

/-- R22: register 0 is hard-wired, for the host's accessors and for Write-Back alike; registers 1 to 31 hold what is
written. -/
def Obligations.RegisterZeroHardWired : Prop :=
  (∀ (s : State) (v : Word), hostRegRead 0 s = .ok 0#32 ∧ hostRegWrite 0 v s = .next s) ∧
  (∀ (s : State) (i : Int) (v : Word), 1 ≤ i → i ≤ 31 →
    ∃ t, hostRegWrite i v s = .next t ∧ hostRegRead i t = .ok v ∧
      ∀ j, j ≠ i → hostRegRead j t = hostRegRead j s) ∧
  (∀ s : State, Working s → s.mw.w.ctrl.regWrite = true → s.mw.w.dest = 0#5 →
    ∃ t, step s = .next t ∧ t.x = s.x ∧ t.reg 0#5 = 0#32)

/-- R23, R222: an index outside 0 to 31 is answered with the invalid-address error. (That nothing is stored is the
spec's decision D28; no next state is answered.) -/
def Obligations.HostIndexOutOfRangeFails : Prop :=
  ∀ (s : State) (i : Int) (v : Word), (i < 0 ∨ 32 ≤ i) →
    hostRegRead i s = .error .invalidAddress ∧ hostRegWrite i v s = .fault .invalidAddress

/-- R52: the access at an address is the access at the address with its two low bits cleared, for loads, stores and
the host's accessors. -/
def Obligations.LowAddressBitsIgnored : Prop :=
  ∀ (m : Memory) (words : Nat) (s : State) (addr v : Word) (n : Nat),
    m.load words addr n = m.load words (addr &&& 0xFFFFFFFC#32) n ∧
    m.store words addr v = m.store words (addr &&& 0xFFFFFFFC#32) v ∧
    hostDataRead addr s = hostDataRead (addr &&& 0xFFFFFFFC#32) s ∧
    hostDataWrite addr v s = hostDataWrite (addr &&& 0xFFFFFFFC#32) v s ∧
    hostInstrRead addr s = hostInstrRead (addr &&& 0xFFFFFFFC#32) s ∧
    hostInstrWrite addr v s = hostInstrWrite (addr &&& 0xFFFFFFFC#32) v s

/-- R55: a store in range replaces the whole cell at `addr[31:2]` and no other; out of range it changes nothing. In
every memory of canonical form (log 1), which every run keeps (StepKeepsInvariant). -/
def Obligations.StoreReplacesOneCell : Prop :=
  ∀ (m : Memory) (words : Nat) (addr v : Word), m.wf words = true →
    (addr.toNat / 4 < words →
      ∀ k, (m.store words addr v).cell k = if k = addr.toNat / 4 then v else m.cell k) ∧
    (words ≤ addr.toNat / 4 → m.store words addr v = m)

/-- R54, R57: a load in range delivers the cell, 0 where nothing was stored, and no unspecified word is drawn; out of
range the word is the free value (log 5) and the next draw is another one. That it is fresh is the spec's decision
D18. -/
def Obligations.LoadDeliversCell : Prop :=
  ∀ (m : Memory) (words : Nat) (addr : Word) (n : Nat),
    (addr.toNat / 4 < words →
      m.load words addr n = m.cell (addr.toNat / 4) ∧ Memory.loadCount words addr n = n) ∧
    (words ≤ addr.toNat / 4 →
      m.load words addr n = Config.freeWord n ∧ Memory.loadCount words addr n = n + 1) ∧
    Memory.blank.cell (addr.toNat / 4) = 0#32

/-- R192: the effective address is base plus signed displacement, modulo 2^32. -/
def Obligations.EffectiveAddressArithmetic : Prop :=
  ∀ (base : Word) (offset : BitVec 16),
    ((effectiveAddress base offset).toNat : Int) = ((base.toNat : Int) + offset.toInt) % 2 ^ 32

/-- R201: the branch target is P + 4 + 4 * offset modulo 2^32, and a multiple of 4 where P is one. -/
def Obligations.BranchTargetArithmetic : Prop :=
  ∀ (p : Word) (offset : BitVec 16),
    ((branchTarget (nextPc p) (sext32 offset)).toNat : Int) =
      ((p.toNat : Int) + 4 + 4 * offset.toInt) % 2 ^ 32 ∧
    (p.toNat % 4 = 0 → (branchTarget (nextPc p) (sext32 offset)).toNat % 4 = 0)

/-! ### One call of `Step()` -/

/-- R145: a machine with MAX_PC = 0 never runs a cycle, whatever the instruction memory holds, however often it is
called. -/
def Obligations.UnloadedMachineNeverRuns : Prop :=
  ∀ (s : State) (n : Nat), s.maxPc = 0#32 →
    stepAnswer s = .next (s, .halt) ∧ Sys2Proof.core.run n s = .next s

/-- R131, R144: once `pc > MAX_PC` no call changes any state, and each answers "halt". (That the test stands before
sub-step 1 is the spec's decision D7, log 11.) -/
def Obligations.HaltedMachineStays : Prop :=
  ∀ (s : State) (n : Nat), s.maxPc.toNat < s.pc.toNat →
    stepAnswer s = .next (s, .halt) ∧ Sys2Proof.core.run n s = .next s

/-- R139: a working call answers by its updated program counter. (The moment is the spec's decision D8, log 11.) -/
def Obligations.WorkingCallAnswersByNewPc : Prop :=
  ∀ s : State, Working s →
    ∃ t, step s = .next t ∧
      stepAnswer s = .next (t, if t.pc.toNat ≤ s.maxPc.toNat then Signal.cont else Signal.halt)

/-- R240: nothing is raised by any call in any state; the one refusal is a launch that breaks
`MAX_PC < 4 * IMEM_WORDS` (R228, the spec's decision D20, log 7), and every other call answers a next state. -/
def Obligations.StepNeverRaises : Prop :=
  ∀ s : State,
    (∀ f, step s ≠ .fault f) ∧
    (∀ r, step s = .refused r →
      r = .launchPremise ∧ s.maxPc ≠ 0#32 ∧ s.pc.toNat ≤ s.maxPc.toNat ∧
        4 * s.capacities.imemWords ≤ s.maxPc.toNat) ∧
    (s.maxPc.toNat < 4 * s.capacities.imemWords → ∃ t, step s = .next t)

/-- R56, R228: no working call fetches beyond the instruction memory. (That such a launch is declined is the spec's decision
D20, log 7.) -/
def Obligations.FetchStaysInRange : Prop :=
  ∀ s : State, Working s →
    s.pc.toNat / 4 < s.capacities.imemWords ∧ Memory.inRange s.capacities.imemWords s.pc = true

/-- R132: Flush promotes every field of every write slot into its read slot and keeps the write slots; after a working
call the read slots are still those. -/
def Obligations.FlushPromotesWriteSlots : Prop :=
  ∀ s : State,
    (flush s.toHardware).fd = ⟨s.fd.w, s.fd.w⟩ ∧ (flush s.toHardware).dx = ⟨s.dx.w, s.dx.w⟩ ∧
    (flush s.toHardware).xm = ⟨s.xm.w, s.xm.w⟩ ∧ (flush s.toHardware).mw = ⟨s.mw.w, s.mw.w⟩ ∧
    (Working s → ∃ t, step s = .next t ∧
      t.fd.r = s.fd.w ∧ t.dx.r = s.dx.w ∧ t.xm.r = s.xm.w ∧ t.mw.r = s.mw.w)

/-- R133: the fields the forward-pass carries one buffer on. (Which they are is the spec's decision D10, log 14.) -/
def Obligations.ForwardPassCarriesFields : Prop :=
  ∀ s : State, Working s → ∃ t, step s = .next t ∧
    t.dx.w.instr = s.fd.w.instr ∧ t.dx.w.pc4 = s.fd.w.pc4 ∧
    t.xm.w.ctrl = s.dx.w.ctrl ∧ t.xm.w.rd2 = s.dx.w.rd2 ∧
    t.mw.w.ctrl = s.xm.w.ctrl ∧ t.mw.w.aluResult = s.xm.w.aluResult ∧ t.mw.w.dest = s.xm.w.dest

/-- R134: Write-Back writes the one register MW names, with the loaded word or the ALU result; a write to index 0 is
dropped and with RegWrite = 0 no register changes. It comes before the Decode stage of the same cycle reads: that stage
latches the two registers as Write-Back leaves them. -/
def Obligations.WriteBackWritesOneRegister : Prop :=
  ∀ s : State, Working s → ∃ t, step s = .next t ∧
    (s.mw.w.ctrl.regWrite = false → t.x = s.x) ∧
    (s.mw.w.ctrl.regWrite = true → ∀ r, t.reg r =
      if r = s.mw.w.dest ∧ r ≠ 0#5 then
        (if s.mw.w.ctrl.memToReg = true then s.mw.w.readData else s.mw.w.aluResult)
      else s.reg r) ∧
    t.dx.w.rd1 = t.reg (rsOf s.fd.w.instr) ∧ t.dx.w.rd2 = t.reg (rtOf s.fd.w.instr)

/-- R135: what the Memory stage reads, latches and stores. (That `readData` is 0 without a load is the spec's decision
D17, log 12; the out-of-range word is the free value of log 5.) -/
def Obligations.MemoryStageAccesses : Prop :=
  ∀ s : State, Working s → ∃ t, step s = .next t ∧
    (s.xm.w.ctrl.memRead = false → t.mw.w.readData = 0#32 ∧ t.freeCount = s.freeCount) ∧
    (s.xm.w.ctrl.memRead = true →
      t.mw.w.readData = s.dmem.load s.capacities.dmemWords s.xm.w.aluResult s.freeCount ∧
      t.freeCount = Memory.loadCount s.capacities.dmemWords s.xm.w.aluResult s.freeCount) ∧
    (s.xm.w.ctrl.memWrite = false → t.dmem = s.dmem) ∧
    (s.xm.w.ctrl.memWrite = true → t.dmem = s.dmem.store s.capacities.dmemWords s.xm.w.aluResult s.xm.w.rd2)

/-- R136: the Execute stage, for every content of DX. -/
def Obligations.ExecuteStageComputes : Prop :=
  ∀ s : State, Working s → ∃ t, step s = .next t ∧
    t.xm.w.branchTarget = s.dx.w.pc4 + s.dx.w.imm <<< 2 ∧
    t.aluResult =
      alu (aluControl s.dx.w.ctrl.aluOp1 s.dx.w.ctrl.aluOp0 (s.dx.w.imm.extractLsb' 0 6)) s.dx.w.rd1
        (if s.dx.w.ctrl.aluSrc = true then s.dx.w.imm else s.dx.w.rd2) s.aluResult ∧
    t.xm.w.aluResult = t.aluResult ∧
    (t.xm.w.zero = true ↔ t.aluResult = 0#32) ∧
    t.xm.w.dest = (if s.dx.w.ctrl.regDst = true then s.dx.w.instr.extractLsb' 11 5
      else s.dx.w.instr.extractLsb' 16 5)

/-- R137: the Decode stage reads both registers of the word in FD, as Write-Back of the same cycle leaves them,
decodes its control vector and extends its offset. -/
def Obligations.DecodeStageReads : Prop :=
  ∀ s : State, Working s → ∃ t, step s = .next t ∧
    t.dx.w.rd1 = t.reg (s.fd.w.instr.extractLsb' 21 5) ∧
    t.dx.w.rd2 = t.reg (s.fd.w.instr.extractLsb' 16 5) ∧
    t.dx.w.ctrl = controlDecode s.fd.w.instr ∧
    t.dx.w.imm = (s.fd.w.instr.extractLsb' 0 16).signExtend 32

/-- R138: the Fetch stage. (`FD.w.pc4` of a redirecting cycle is the spec's decision D11, log 10; that XM's read slot
of this same cycle decides is D12.) -/
def Obligations.FetchStageSteers : Prop :=
  ∀ s : State, Working s → ∃ t, step s = .next t ∧
    t.fd.w.instr = s.imem.cell (s.pc.toNat / 4) ∧ t.fd.w.pc4 = s.pc + 4#32 ∧
    t.pc = (if s.xm.w.ctrl.branch = true ∧ s.xm.w.zero = true then s.xm.w.branchTarget else s.pc + 4#32)

/-- Every instruction can be fetched: `exec` answers a next state for every instruction in every state, with its word
and its own address plus 4 latched in FD; and in that cycle the choice of instruction touches nothing else (R31, R138;
that `exec` is this cycle is log 9). That the address is its own plus 4 in a cycle that redirects too is the spec's
decision D11, log 10. -/
def Obligations.EveryInstructionIsFetched : Prop :=
  ∀ (i j : Instr) (s : State), ∃ t u, exec i s = .next t ∧ exec j s = .next u ∧
    t.fd.w.instr = encode i ∧ t.fd.w.pc4 = s.pc + 4#32 ∧
    t = { u with fd := { u.fd with w := { u.fd.w with instr := encode i } } }

/-- The frame of the cycle any instruction is fetched in: no register but the one MW names, no cell but the one XM
stores to at the address the Memory stage uses, no ALU result unless an implemented selector dispatches; instruction
memory, MAX_PC and capacities never (R24, R26, R64, R66, R108, R134, R135). That selectors 7 and 8 are among those that
leave the ALU result is the spec's decisions D15 and D16, log 13. In every state with canonical data memory (log 1). -/
def Obligations.CycleFrame : Prop :=
  ∀ (i : Instr) (s t : State), s.dmem.wf s.capacities.dmemWords = true → exec i s = .next t →
    (∀ r, (s.mw.w.ctrl.regWrite = false ∨ r ≠ s.mw.w.dest) → t.reg r = s.reg r) ∧
    (∀ k, (s.xm.w.ctrl.memWrite = false ∨ Memory.inRange s.capacities.dmemWords s.xm.w.aluResult = false ∨
      k ≠ cellIndex s.xm.w.aluResult) → t.dmem.cell k = s.dmem.cell k) ∧
    (∀ op, op = aluControl s.dx.w.ctrl.aluOp1 s.dx.w.ctrl.aluOp0 (functInput s.dx.w) →
      op ≠ 0#4 → op ≠ 1#4 → op ≠ 2#4 → op ≠ 6#4 → t.aluResult = s.aluResult) ∧
    (s.xm.w.ctrl.memRead = false → t.freeCount = s.freeCount) ∧
    t.imem = s.imem ∧ t.maxPc = s.maxPc ∧ t.capacities = s.capacities

/-- R26, R36, R64: over any number of calls, from any state, the instruction memory, MAX_PC and the capacities stay
as they are. -/
def Obligations.InstructionMemoryIsConstant : Prop :=
  ∀ (s t : State) (n : Nat), Sys2Proof.core.run n s = .next t →
    t.imem = s.imem ∧ t.maxPc = s.maxPc ∧ t.capacities = s.capacities

/-! ### The passage of each instruction: Fetch in Step s, Write-Back in Step s + 4 (R142) -/

/-- R171: `add $rd,$rs,$rt`, from any state in which the four later calls work: the sum of the two registers as read
in Step s + 1. -/
def Obligations.AddCourse : Prop :=
  ∀ (rd rs rt : RegIdx) (shamt : BitVec 5) (s : State), StaysWorking (.add rd rs rt shamt) s →
    decode (0x00000020#32 ||| rs.setWidth 32 <<< 21 ||| rt.setWidth 32 <<< 16 ||| rd.setWidth 32 <<< 11 |||
      shamt.setWidth 32 <<< 6) = .add rd rs rt shamt ∧
    ∃ s1 s2 s3 s4 s5, Passage (.add rd rs rt shamt) s s1 s2 s3 s4 s5 ∧
      RTypeCourse rd (s2.reg rs + s2.reg rt) s2 s3 s4 s5

/-- R172: `sub $rd,$rs,$rt`: `x[rs] - x[rt]`. -/
def Obligations.SubCourse : Prop :=
  ∀ (rd rs rt : RegIdx) (shamt : BitVec 5) (s : State), StaysWorking (.sub rd rs rt shamt) s →
    decode (0x00000022#32 ||| rs.setWidth 32 <<< 21 ||| rt.setWidth 32 <<< 16 ||| rd.setWidth 32 <<< 11 |||
      shamt.setWidth 32 <<< 6) = .sub rd rs rt shamt ∧
    ∃ s1 s2 s3 s4 s5, Passage (.sub rd rs rt shamt) s s1 s2 s3 s4 s5 ∧
      RTypeCourse rd (s2.reg rs - s2.reg rt) s2 s3 s4 s5

/-- R173: `and $rd,$rs,$rt`. -/
def Obligations.AndCourse : Prop :=
  ∀ (rd rs rt : RegIdx) (shamt : BitVec 5) (s : State), StaysWorking (.and rd rs rt shamt) s →
    decode (0x00000024#32 ||| rs.setWidth 32 <<< 21 ||| rt.setWidth 32 <<< 16 ||| rd.setWidth 32 <<< 11 |||
      shamt.setWidth 32 <<< 6) = .and rd rs rt shamt ∧
    ∃ s1 s2 s3 s4 s5, Passage (.and rd rs rt shamt) s s1 s2 s3 s4 s5 ∧
      RTypeCourse rd (s2.reg rs &&& s2.reg rt) s2 s3 s4 s5

/-- R174: `or $rd,$rs,$rt`. -/
def Obligations.OrCourse : Prop :=
  ∀ (rd rs rt : RegIdx) (shamt : BitVec 5) (s : State), StaysWorking (.or rd rs rt shamt) s →
    decode (0x00000025#32 ||| rs.setWidth 32 <<< 21 ||| rt.setWidth 32 <<< 16 ||| rd.setWidth 32 <<< 11 |||
      shamt.setWidth 32 <<< 6) = .or rd rs rt shamt ∧
    ∃ s1 s2 s3 s4 s5, Passage (.or rd rs rt shamt) s s1 s2 s3 s4 s5 ∧
      RTypeCourse rd (s2.reg rs ||| s2.reg rt) s2 s3 s4 s5

/-- R175: the `slt` slot writes the ALU result that was there when it reached Execute, the two registers ignored.
(That no comparison is made is the spec's decision D15, log 13.) -/
def Obligations.SltSlotCourse : Prop :=
  ∀ (rd rs rt : RegIdx) (shamt : BitVec 5) (s : State), StaysWorking (.slt rd rs rt shamt) s →
    decode (0x0000002A#32 ||| rs.setWidth 32 <<< 21 ||| rt.setWidth 32 <<< 16 ||| rd.setWidth 32 <<< 11 |||
      shamt.setWidth 32 <<< 6) = .slt rd rs rt shamt ∧
    ∃ s1 s2 s3 s4 s5, Passage (.slt rd rs rt shamt) s s1 s2 s3 s4 s5 ∧
      RTypeCourse rd s2.aluResult s2 s3 s4 s5

/-- R176: every other non-zero word with OpCode 0 behaves as `and`, whatever its FUNCT and SHAMT. -/
def Obligations.RtypeOtherCourse : Prop :=
  ∀ (rd rs rt : RegIdx) (shamt : BitVec 5) (funct : BitVec 6) (s : State),
    (Instr.rtypeOther rd rs rt shamt funct).wf = true →
    StaysWorking (.rtypeOther rd rs rt shamt funct) s →
    ∃ s1 s2 s3 s4 s5, Passage (.rtypeOther rd rs rt shamt funct) s s1 s2 s3 s4 s5 ∧
      RTypeCourse rd (s2.reg rs &&& s2.reg rt) s2 s3 s4 s5

/-- R190, R192: `lw $rt, offset($rs)`. The memory is read in Step s + 3, as the stores of earlier instructions left it;
in range the register gets the whole cell, out of range some word `v` nothing constrains (the free value of log 5). -/
def Obligations.LwCourse : Prop :=
  ∀ (rt rs : RegIdx) (offset : BitVec 16) (s : State), StaysWorking (.lw rt offset rs) s →
    decode (0x8C000000#32 ||| rs.setWidth 32 <<< 21 ||| rt.setWidth 32 <<< 16 ||| offset.setWidth 32) =
      .lw rt offset rs ∧
    ∃ s1 s2 s3 s4 s5, Passage (.lw rt offset rs) s s1 s2 s3 s4 s5 ∧
      s2.dx.w.ctrl = ⟨false, false, false, true, false, true, false, true, true⟩ ∧
      s2.dx.w.rd1 = s2.reg rs ∧ s2.dx.w.rd2 = s2.reg rt ∧
      s3.aluResult = s2.reg rs + sext32 offset ∧ s3.xm.w.aluResult = s3.aluResult ∧
      (s3.xm.w.zero = true ↔ s3.aluResult = 0#32) ∧ s3.xm.w.dest = rt ∧
      s4.pc = nextPc s3.pc ∧ s4.dmem = s3.dmem ∧
      ∃ v : Word,
        (Memory.inRange s3.capacities.dmemWords s3.aluResult = true →
          v = s3.dmem.cell (s3.aluResult.toNat / 4) ∧ s4.freeCount = s3.freeCount) ∧
        s4.mw.w.readData = v ∧
        s5.reg rt = (if rt = 0#5 then 0#32 else v) ∧ ∀ r, r ≠ rt → s5.reg r = s4.reg r

/-- R191, R192: `sw $rt, offset($rs)`. In Step s + 3 the cell at the effective address becomes `x[rt]` as read in Step
s + 1, every other cell stays; out of range nothing changes; no register is written. In every state with canonical data
memory, which every run keeps (StepKeepsInvariant). -/
def Obligations.SwCourse : Prop :=
  ∀ (rt rs : RegIdx) (offset : BitVec 16) (s : State), s.dmem.wf s.capacities.dmemWords = true →
    StaysWorking (.sw rt offset rs) s →
    decode (0xAC000000#32 ||| rs.setWidth 32 <<< 21 ||| rt.setWidth 32 <<< 16 ||| offset.setWidth 32) =
      .sw rt offset rs ∧
    ∃ s1 s2 s3 s4 s5, Passage (.sw rt offset rs) s s1 s2 s3 s4 s5 ∧
      s2.dx.w.ctrl = ⟨false, false, false, true, false, false, true, false, false⟩ ∧
      s3.aluResult = s2.reg rs + sext32 offset ∧ s3.xm.w.aluResult = s3.aluResult ∧
      s3.xm.w.rd2 = s2.reg rt ∧ (s3.xm.w.zero = true ↔ s3.aluResult = 0#32) ∧ s3.xm.w.dest = rt ∧
      s4.pc = nextPc s3.pc ∧ s4.freeCount = s3.freeCount ∧
      (∀ k, s4.dmem.cell k =
        if s3.aluResult.toNat / 4 < s3.capacities.dmemWords ∧ k = s3.aluResult.toNat / 4 then s2.reg rt
        else s3.dmem.cell k) ∧
      (s3.capacities.dmemWords ≤ s3.aluResult.toNat / 4 → s4.dmem = s3.dmem) ∧
      s5.x = s4.x

/-- R200, R201: `beq $rs,$rt,offset` at address P = `s.pc`: the two registers as read in Step s + 1 are compared in
Step s + 2 and `pc` is steered in Step s + 3, in which the instruction at the current `pc` is fetched all the same. No
register and no cell is written. (For a `beq` fetched in a Step that redirects, R203, that `pc4` and so the target count
from its own address is the spec's decision D11, U10, log 10.) -/
def Obligations.BeqCourse : Prop :=
  ∀ (rs rt : RegIdx) (offset : BitVec 16) (s : State), StaysWorking (.beq rs rt offset) s →
    decode (0x10000000#32 ||| rs.setWidth 32 <<< 21 ||| rt.setWidth 32 <<< 16 ||| offset.setWidth 32) =
      .beq rs rt offset ∧
    ∃ s1 s2 s3 s4 s5, Passage (.beq rs rt offset) s s1 s2 s3 s4 s5 ∧
      s1.fd.w.instr = encode (.beq rs rt offset) ∧ s1.fd.w.pc4 = s.pc + 4#32 ∧
      s2.dx.w.ctrl = ⟨false, false, true, false, true, false, false, false, false⟩ ∧
      s3.aluResult = s2.reg rs - s2.reg rt ∧ (s3.xm.w.zero = true ↔ s2.reg rs = s2.reg rt) ∧
      s3.xm.w.branchTarget = s.pc + 4#32 + sext32 offset <<< 2 ∧
      s4.fd.w.instr = iMemRead s3 s3.pc ∧
      s4.pc = (if s2.reg rs = s2.reg rt then s.pc + 4#32 + sext32 offset <<< 2 else s3.pc + 4#32) ∧
      s4.dmem = s3.dmem ∧ s4.freeCount = s3.freeCount ∧ s5.x = s4.x

/-- R210: `nop`, the zero word: nothing but buffer fields changes on its account; the ALU retains. (That selector 8
retains is the spec's decision D16, log 13.) -/
def Obligations.NopCourse : Prop :=
  ∀ s : State, StaysWorking .nop s →
    decode 0x00000000#32 = .nop ∧
    ∃ s1 s2 s3 s4 s5, Passage .nop s s1 s2 s3 s4 s5 ∧ NoOpCourse s2 s3 s4 s5

/-- R211: an unknown opcode behaves as `nop`, whatever its other 26 bits. (That selector 8 retains is the spec's
decision D16, log 13.) -/
def Obligations.UnknownCourse : Prop :=
  ∀ (opcode : BitVec 6) (rest : BitVec 26) (s : State),
    opcode ≠ 0#6 → opcode ≠ 4#6 → opcode ≠ 35#6 → opcode ≠ 43#6 →
    StaysWorking (.unknown opcode rest) s →
    decode (opcode.setWidth 32 <<< 26 ||| rest.setWidth 32) = .unknown opcode rest ∧
    ∃ s1 s2 s3 s4 s5, Passage (.unknown opcode rest) s s1 s2 s3 s4 s5 ∧ NoOpCourse s2 s3 s4 s5

/-! ### Control flow, hazards, the end of a run -/

/-- R202: the shadow of a branch. With no other branch in flight, the fetch addresses after a `beq` at P are P + 4,
P + 8, P + 12 whatever it decides, and then the target or P + 16. -/
def Obligations.BranchShadow : Prop :=
  ∀ (rs rt : RegIdx) (offset : BitVec 16) (s : State), StaysWorking (.beq rs rt offset) s →
    s.xm.w.ctrl.branch = false → s.dx.w.ctrl.branch = false →
    (controlDecode s.fd.w.instr).branch = false →
    ∃ s1 s2 s3 s4 s5, Passage (.beq rs rt offset) s s1 s2 s3 s4 s5 ∧
      s1.pc = s.pc + 4#32 ∧ s2.pc = s.pc + 8#32 ∧ s3.pc = s.pc + 12#32 ∧
      s4.pc = (if s2.reg rs = s2.reg rt then branchTarget (s.pc + 4#32) (sext32 offset)
        else s.pc + 16#32)

/-- R264: the whole control flow in one recurrence, with s = n + 1. The address fetched in Step n + 2 is the target of
the instruction fetched in Step n - 2 where that is a `beq` whose two registers, as read in Step n - 1, are equal; and
otherwise the address fetched in Step n + 1 plus 4. (The target takes the reading of D11, log 10; that the first fetch is at
0 with harmless buffers is D3 and D5, log 4.) -/
def Obligations.FetchRecurrence : Prop :=
  ∀ (s : State) (n : Nat), Launched s → (∀ j ≤ n, Working (cycles j s)) →
    Sys2Proof.core.run (n + 1) s = .next (cycles (n + 1) s) ∧
    (cycles 0 s).pc = 0#32 ∧
    (cycles (n + 1) s).pc =
      if 3 ≤ n then
        match fetched s (n - 3) with
        | .beq rs rt offset =>
          if (cycles (n - 1) s).reg rs = (cycles (n - 1) s).reg rt then
            (cycles (n - 3) s).pc + 4#32 + sext32 offset <<< 2
          else (cycles n s).pc + 4#32
        | _ => (cycles n s).pc + 4#32
      else (cycles n s).pc + 4#32

/-- R265: draining. In a launched run of a program without a `beq`, the (k + 1)-th call is a working cycle exactly when
4 * k <= MAX_PC, and it fetches at 4 * k; so of N instructions placed from address 0 all retire (Step N + 4 works)
exactly when MAX_PC >= 4 * (N - 1) + 16. (MAX_PC below 0xFFFFFFFC: from there on `pc` wraps to 0 before it can pass
MAX_PC, R25, and the machine never stops.) That the run starts at 0 with harmless buffers is the spec's decisions D3 and
D5, log 4; that the guard decides before sub-step 1 is D7, log 11. -/
def Obligations.StraightLineDrains : Prop :=
  ∀ s : State, Launched s → s.maxPc ≠ 0#32 → s.maxPc.toNat < 0xFFFFFFFC →
    (∀ i, opCodeOf (s.imem.cell i) ≠ 4#6) →
    (∀ k, 4 * k ≤ s.maxPc.toNat → Working (cycles k s) ∧ (cycles k s).pc = BitVec.ofNat 32 (4 * k)) ∧
    (∀ N, 1 ≤ N → ((∀ j < N + 4, Working (cycles j s)) ↔ 4 * (N - 1) + 16 ≤ s.maxPc.toNat))

/-- R229, R225: the end of a run. Of the same launched run the caller's loop makes exactly MAX_PC / 4 + 1 calls: that one
answers "halt", no earlier one does, and the final state stays under any further calls. The count and the last working
call's "halt" rest on the spec's decision D8, and that the run ends there on D30, the rest on D7 (log 11); that the run
starts at 0 with harmless buffers is D3 and D5 (log 4). -/
def Obligations.StraightLineRunEnds : Prop :=
  ∀ s : State, Launched s → s.maxPc ≠ 0#32 → s.maxPc.toNat < 0xFFFFFFFC →
    (∀ i, opCodeOf (s.imem.cell i) ≠ 4#6) →
    (∀ n, n ≤ s.maxPc.toNat / 4 → callerLoop n s = .next (cycles n s, .cont)) ∧
    (∀ n, s.maxPc.toNat / 4 < n → callerLoop n s = .next (cycles (s.maxPc.toNat / 4 + 1) s, .halt)) ∧
    ∀ n, Sys2Proof.core.run n (cycles (s.maxPc.toNat / 4 + 1) s) = .next (cycles (s.maxPc.toNat / 4 + 1) s)

/-- R212: the reset content of the buffers is harmless. In the first three calls of a launched run no register and no cell
changes, `pc` counts 0, 4, 8, 12, and the ALU result is 0 until the first instruction executes. The reset content itself
is the spec's decisions: D3 (`pc`), D5 (the buffers) and D6 (the ALU result), log 4. -/
def Obligations.ResetContentIsHarmless : Prop :=
  ∀ (s : State) (n : Nat), Launched s → n ≤ 3 → (∀ j < n, Working (cycles j s)) →
    Sys2Proof.core.run n s = .next (cycles n s) ∧
    (cycles n s).x = s.x ∧ (cycles n s).dmem = s.dmem ∧ (cycles n s).pc = BitVec.ofNat 32 (4 * n) ∧
    (n ≤ 2 → (cycles n s).aluResult = 0#32)

/-- R272, R62: a `lw` fetched directly behind a `sw` to the same cell, in range, gets the stored word: no memory hazard.
`s1` to `s6` are the states after the six Steps of the two. -/
def Obligations.LoadBehindStoreGetsIt : Prop :=
  ∀ (rt rs rt' rs' : RegIdx) (offset offset' : BitVec 16) (s s1 s2 s3 s4 s5 s6 : State),
    s.dmem.wf s.capacities.dmemWords = true →
    Passage (.sw rt offset rs) s s1 s2 s3 s4 s5 → Passage (.lw rt' offset' rs') s1 s2 s3 s4 s5 s6 →
    Working s1 → Working s2 → Working s3 → Working s4 → Working s5 →
    cellIndex (effectiveAddress (s2.reg rs) offset) = cellIndex (effectiveAddress (s3.reg rs') offset') →
    Memory.inRange s.capacities.dmemWords (effectiveAddress (s2.reg rs) offset) = true →
    s6.reg rt' = if rt' = 0#5 then 0#32 else s2.reg rt

/-- R275: when the pipeline equals a sequential machine. In a launched run in which no instruction up to k uses a
register that one of the two before it writes, the pipeline gives instructions 0 to k the registers, data memory and
ALU result of the reference machine: after Step k + 5, k + 4 and k + 3, in which instruction k has written its register,
made its access and left Execute. The reference machine is the model's own writing of R275 (log 19): in it an `slt` slot
uses no register, though R267 lists both sources of every R-type, so the premise asks less; and what it and the no-op rows
leave in the ALU result is the spec's decisions D15 and D16 (log 13). Launched runs start from the reset values of log 4. -/
def Obligations.PipelineEqualsSequential : Prop :=
  ∀ (s : State) (k : Nat), Launched s → (∀ j < k + 5, Working (cycles j s)) → HazardFree s k →
    Sys2Proof.core.run (k + 5) s = .next (cycles (k + 5) s) ∧
    (cycles (k + 5) s).x = (reference s (k + 1)).x ∧
    (cycles (k + 4) s).dmem = (reference s (k + 1)).dmem ∧
    (cycles (k + 4) s).freeCount = (reference s (k + 1)).freeCount ∧
    (cycles (k + 3) s).aluResult = (reference s (k + 1)).aluResult

/-! ### Reset, the loader, the invariant -/

/-- R38, R260, R261: reset leaves every piece of state at zero, the program counter at the reset vector 0. For all but
the memories and register 0 the zero is the spec's decision D3 to D6 and D27 (log 4); the capacities are log 3's. -/
def Obligations.ResetState : Prop :=
  ∀ s : State, s = State.reset ∨ (∃ t, s = resetMachine t) →
    (∀ r, s.reg r = 0#32) ∧ s.pc = 0#32 ∧ s.maxPc = 0#32 ∧ s.aluResult = 0#32 ∧
    (∀ k, s.imem.cell k = 0#32) ∧ (∀ k, s.dmem.cell k = 0#32) ∧
    s.fd = ⟨⟨0#32, 0#32⟩, ⟨0#32, 0#32⟩⟩ ∧
    (∀ d, d = s.dx.r ∨ d = s.dx.w → d = ⟨0#32, 0#32, 0#32, 0#32, 0#32, Control.allZero⟩) ∧
    (∀ m, m = s.xm.r ∨ m = s.xm.w → m = ⟨Control.allZero, 0#32, 0#32, 0#32, false, 0#5⟩) ∧
    (∀ m, m = s.mw.r ∨ m = s.mw.w → m = ⟨Control.allZero, 0#32, 0#5, 0#32⟩)

/-- R228, R221: reset and then any accesses of the loader that all succeed lead to a launched state, if the MAX_PC
left keeps the premise (D20, log 7); and to one that meets the invariant (for its own clauses see StepKeepsInvariant). -/
def Obligations.LoaderReachesLaunch : Prop :=
  ∀ (s t : State) (actions : List LoaderAction),
    s.imem.wf s.capacities.imemWords = true → s.dmem.wf s.capacities.dmemWords = true →
    loaderRun actions (resetMachine s) = .next t → t.launchable = true →
    Launched t ∧ t.Inv

/-- R221: the order of the loader's writes does not matter where they touch different things. -/
def Obligations.LoaderOrderIsFree : Prop :=
  ∀ (a b : LoaderAction) (s t : State),
    s.imem.wf s.capacities.imemWords = true → s.dmem.wf s.capacities.dmemWords = true → DifferentTargets a b →
    loaderRun [a, b] s = .next t → loaderRun [b, a] s = .next t

/-- R223: the loader cannot place an instruction beyond IMEM_WORDS (declined, the spec's decision D20, log 16), and a
data write there is swallowed. -/
def Obligations.LoaderStopsAtInstructionStore : Prop :=
  ∀ (s : State) (addr v : Word),
    (s.capacities.imemWords ≤ addr.toNat / 4 → hostInstrWrite addr v s = .refused .instructionStoreBound) ∧
    (addr.toNat / 4 < s.capacities.imemWords → ∃ t, hostInstrWrite addr v s = .next t ∧ t.pc = s.pc ∧
      t.imem = s.imem.store s.capacities.imemWords addr v) ∧
    (s.capacities.dmemWords ≤ addr.toNat / 4 → hostDataWrite addr v s = s)

/-- Placing a word (log 6): from any state with canonical instruction memory and `pc` in range, the very next step runs
exactly the placed word. The placing is the model's own operation, made of the loader's accesses (R221, R224). -/
def Obligations.PlacedWordRunsNext : Prop :=
  ∀ (s : State) (w : Nat),
    s.imem.wf s.capacities.imemWords = true → Memory.inRange s.capacities.imemWords s.pc = true → w < 2 ^ 32 →
    Working (s.withFetchWord 32 w) ∧
    step (s.withFetchWord 32 w) = exec (decode (BitVec.ofNat 32 w)) (s.withFetchWord 32 w)

/-- The invariant is kept by every step from every state that meets it. The spec's: `pc` and every address that can
become it a multiple of 4 (R25), every latched immediate its word's own (R105), Zero only on a zero result (R27), every
control vector a row of R100. The spec's own decisions: a vector of nine zeros is legal too, the reset content (D5, R212,
log 4), and read data is 0 without a load (D17, R135, log 12). The model's own: memories in canonical form (log 1) of a
capacity R5 allows (log 2), and the storage place behind register 0 holds 0 (log 18). -/
def Obligations.StepKeepsInvariant : Prop :=
  ∀ s t : State, s.Inv → step s = .next t → t.Inv

/-- The invariant holds at reset. Its clauses are marked at StepKeepsInvariant; the reset values are those of log 4, the
capacities log 3's. -/
def Obligations.ResetMeetsInvariant : Prop := State.reset.Inv

/-! ### Configuration and snapshots -/

/-- R5, R39: the capacities are an argument of the machine and no state of its hardware. No call, no access of the loader
and no reset changes them; and what a cycle makes of a hardware state depends, of the argument, on DMEM_WORDS alone.
(How the argument is passed is log 2, that reset keeps it log 17.) -/
def Obligations.CapacitiesAreConfiguration : Prop :=
  (∀ (s t : State) (n : Nat), Sys2Proof.core.run n s = .next t → t.capacities = s.capacities) ∧
  (∀ (s t : State) (actions : List LoaderAction), loaderRun actions s = .next t → t.capacities = s.capacities) ∧
  (∀ s : State, (resetMachine s).capacities = s.capacities) ∧
  (∀ (s t : State) (i : Instr), s.toHardware = t.toHardware → s.capacities.dmemWords = t.capacities.dmemWords →
    ∃ h : Hardware, exec i s = .next { s with toHardware := h } ∧ exec i t = .next { t with toHardware := h })

/-- R226: a snapshot is the whole state of R20 but `alu_result`: two states of the hardware with the same
snapshot differ in nothing else (and in the model's own count of free values, log 5). After a working call the ALU result
shows through XM. -/
def Obligations.SnapshotIsAllButAluResult : Prop :=
  (∀ g h : Hardware, snapshot g = snapshot h ↔
    h = { g with aluResult := h.aluResult, freeCount := h.freeCount }) ∧
  (∀ s : State, Working s → ∃ t, step s = .next t ∧ (snapshot t.toHardware).xm.w.aluResult = t.aluResult)
end

