-- ==== Sys2Proof/Laws/Decode.lean ====
section
/-! SUPPORT. The fields of a packed word, and a word as its packed fields. -/

namespace Sys2Proof

/-! ### The fields of a packed word (R71, R72) -/

section
variable (op : BitVec 6) (rs rt rd : RegIdx) (shamt : BitVec 5) (funct : BitVec 6)
  (offset : BitVec 16) (target : BitVec 26)

@[simp] theorem opCodeOf_packR : opCodeOf (packR op rs rt rd shamt funct) = op := by
  ext i hi; simp [opCodeOf, packR]; grind
@[simp] theorem rsOf_packR : rsOf (packR op rs rt rd shamt funct) = rs := by
  ext i hi; simp [rsOf, packR]; grind
@[simp] theorem rtOf_packR : rtOf (packR op rs rt rd shamt funct) = rt := by
  ext i hi; simp [rtOf, packR]; grind
@[simp] theorem rdOf_packR : rdOf (packR op rs rt rd shamt funct) = rd := by
  ext i hi; simp [rdOf, packR]; grind
@[simp] theorem shamtOf_packR : shamtOf (packR op rs rt rd shamt funct) = shamt := by
  ext i hi; simp [shamtOf, packR]; grind
@[simp] theorem functOf_packR : functOf (packR op rs rt rd shamt funct) = funct := by
  ext i hi; simp [functOf, packR]; grind

@[simp] theorem opCodeOf_packI : opCodeOf (packI op rs rt offset) = op := by
  ext i hi; simp [opCodeOf, packI]; grind
@[simp] theorem rsOf_packI : rsOf (packI op rs rt offset) = rs := by
  ext i hi; simp [rsOf, packI]; grind
@[simp] theorem rtOf_packI : rtOf (packI op rs rt offset) = rt := by
  ext i hi; simp [rtOf, packI]; grind
@[simp] theorem offsetOf_packI : offsetOf (packI op rs rt offset) = offset := by
  ext i hi; simp [offsetOf, packI]; grind

@[simp] theorem opCodeOf_packJ : opCodeOf (packJ op target) = op := by
  ext i hi; simp [opCodeOf, packJ]; grind
@[simp] theorem targetOf_packJ : targetOf (packJ op target) = target := by
  ext i hi; simp [targetOf, packJ]; grind
end

@[simp] theorem opCodeOf_zero : opCodeOf 0#32 = 0#6 := rfl
@[simp] theorem rsOf_zero : rsOf 0#32 = 0#5 := rfl
@[simp] theorem rtOf_zero : rtOf 0#32 = 0#5 := rfl
@[simp] theorem rdOf_zero : rdOf 0#32 = 0#5 := rfl
@[simp] theorem shamtOf_zero : shamtOf 0#32 = 0#5 := rfl
@[simp] theorem functOf_zero : functOf 0#32 = 0#6 := rfl
@[simp] theorem offsetOf_zero : offsetOf 0#32 = 0#16 := rfl

/-! ### A word is its packed fields -/

/-- The R layout written as R171 to R176 write it: the function code, then the registers shifted into place. -/
theorem packR_eq_lor (rs rt rd : RegIdx) (shamt : BitVec 5) (funct : BitVec 6) :
    packR 0#6 rs rt rd shamt funct =
      funct.setWidth 32 ||| rs.setWidth 32 <<< 21 ||| rt.setWidth 32 <<< 16 |||
        rd.setWidth 32 <<< 11 ||| shamt.setWidth 32 <<< 6 := by
  simp only [packR, BitVec.setWidth_zero, BitVec.zero_shiftLeft, BitVec.zero_or]
  generalize rs.setWidth 32 <<< 21 = a
  generalize rt.setWidth 32 <<< 16 = b
  generalize rd.setWidth 32 <<< 11 = c
  generalize shamt.setWidth 32 <<< 6 = d
  generalize funct.setWidth 32 = e
  ac_rfl

theorem packR_fields (w : Word) :
    packR (opCodeOf w) (rsOf w) (rtOf w) (rdOf w) (shamtOf w) (functOf w) = w := by
  ext i hi
  simp [packR, opCodeOf, rsOf, rtOf, rdOf, shamtOf, functOf]
  interval_cases i <;> simp

theorem packI_fields (w : Word) : packI (opCodeOf w) (rsOf w) (rtOf w) (offsetOf w) = w := by
  ext i hi
  simp [packI, opCodeOf, rsOf, rtOf, offsetOf]
  interval_cases i <;> simp

theorem packJ_fields (w : Word) : packJ (opCodeOf w) (targetOf w) = w := by
  ext i hi
  simp [packJ, opCodeOf, targetOf]
  interval_cases i <;> simp

theorem encode_decodeRType {w : Word} (h : opCodeOf w = 0#6) : encode (decodeRType w) = w := by
  have hw := packR_fields w
  rw [h] at hw
  unfold decodeRType
  split_ifs with h1 h2 h3 h4 h5 <;> simp only [encode]
  · rw [h1] at hw; exact hw
  · rw [h2] at hw; exact hw
  · rw [h3] at hw; exact hw
  · rw [h4] at hw; exact hw
  · rw [h5] at hw; exact hw
  · exact hw

/-- No bit of a word is lost by decoding it: its instruction's word is the word. -/
theorem encode_decode (w : Word) : encode (decode w) = w := by
  unfold decode
  split_ifs with h0 h1 h2 h3 h4
  · simp [encode, h0]
  · exact encode_decodeRType h1
  · simpa [encode, h2] using packI_fields w
  · simpa [encode, h3] using packI_fields w
  · simpa [encode, h4] using packI_fields w
  · exact packJ_fields w

end Sys2Proof
end

