-- ==== Sys2Proof/Laws/PerInstr.lean ====
section
/-! SUPPORT. Per instruction: the word of a well-formed instruction gets the control row and the ALU selector that
R78 and R104 name for it. -/

namespace Sys2Proof.Laws.ControlRow

/-- The column "control vector row" of R78. -/
def row : Instr → Machine.Control
  | .nop => Machine.Control.noOp
  | .add _ _ _ _ => Machine.Control.rType
  | .sub _ _ _ _ => Machine.Control.rType
  | .and _ _ _ _ => Machine.Control.rType
  | .or _ _ _ _ => Machine.Control.rType
  | .slt _ _ _ _ => Machine.Control.rType
  | .rtypeOther _ _ _ _ _ => Machine.Control.rType
  | .lw _ _ _ => Machine.Control.lw
  | .sw _ _ _ => Machine.Control.sw
  | .beq _ _ _ => Machine.Control.beq
  | .unknown _ _ => Machine.Control.noOp

/-- The column "selector" of R104, "reached by". -/
def selector : Instr → BitVec 4
  | .nop => 8#4
  | .add _ _ _ _ => 2#4
  | .sub _ _ _ _ => 6#4
  | .and _ _ _ _ => 0#4
  | .or _ _ _ _ => 1#4
  | .slt _ _ _ _ => 7#4
  | .rtypeOther _ _ _ _ _ => 0#4
  | .lw _ _ _ => 2#4
  | .sw _ _ _ => 2#4
  | .beq _ _ _ => 6#4
  | .unknown _ _ => 8#4

/-- A well-formed instruction's word gets its row, and with it its selector. -/
def Statement (i : Instr) : Prop :=
  i.wf = true → Machine.controlDecode (encode i) = row i ∧
    Machine.aluControl (row i).aluOp1 (row i).aluOp0 (functOf (encode i)) = selector i

/-- A word whose FUNCT is not 0, or whose fields are not all 0, is not the zero word. -/
theorem packR_ne_zero {rd rs rt : RegIdx} {shamt : BitVec 5} {funct : BitVec 6}
    (h : ¬(rd = 0#5 ∧ rs = 0#5 ∧ rt = 0#5 ∧ shamt = 0#5 ∧ funct = 0#6)) :
    packR 0#6 rs rt rd shamt funct ≠ 0#32 := by
  intro hw
  refine h ⟨?_, ?_, ?_, ?_, ?_⟩
  · have := congrArg rdOf hw; simpa using this
  · have := congrArg rsOf hw; simpa using this
  · have := congrArg rtOf hw; simpa using this
  · have := congrArg shamtOf hw; simpa using this
  · have := congrArg functOf hw; simpa using this

theorem word_ne_zero {w : Word} (h : opCodeOf w ≠ 0#6) : w ≠ 0#32 := by
  rintro rfl; exact h rfl

theorem rType_row {rd rs rt : RegIdx} {shamt : BitVec 5} {funct : BitVec 6}
    (h : ¬(rd = 0#5 ∧ rs = 0#5 ∧ rt = 0#5 ∧ shamt = 0#5 ∧ funct = 0#6)) :
    Machine.controlDecode (packR 0#6 rs rt rd shamt funct) = Machine.Control.rType := by
  simp [Machine.controlDecode, packR_ne_zero h]

theorem nop : Statement .nop := fun _ => ⟨rfl, rfl⟩

theorem add (rd rs rt : RegIdx) (shamt : BitVec 5) : Statement (.add rd rs rt shamt) := fun _ =>
  ⟨rType_row (by simp), by simp [encode, row, selector, Machine.Control.rType]; decide⟩

theorem sub (rd rs rt : RegIdx) (shamt : BitVec 5) : Statement (.sub rd rs rt shamt) := fun _ =>
  ⟨rType_row (by simp), by simp [encode, row, selector, Machine.Control.rType]; decide⟩

theorem and (rd rs rt : RegIdx) (shamt : BitVec 5) : Statement (.and rd rs rt shamt) := fun _ =>
  ⟨rType_row (by simp), by simp [encode, row, selector, Machine.Control.rType]; decide⟩

theorem or (rd rs rt : RegIdx) (shamt : BitVec 5) : Statement (.or rd rs rt shamt) := fun _ =>
  ⟨rType_row (by simp), by simp [encode, row, selector, Machine.Control.rType]; decide⟩

theorem slt (rd rs rt : RegIdx) (shamt : BitVec 5) : Statement (.slt rd rs rt shamt) := fun _ =>
  ⟨rType_row (by simp), by simp [encode, row, selector, Machine.Control.rType]; decide⟩

theorem rtypeOther (rd rs rt : RegIdx) (shamt : BitVec 5) (funct : BitVec 6) :
    Statement (.rtypeOther rd rs rt shamt funct) := by
  intro h
  simp only [Instr.wf, namedFunct, Bool.and_eq_true, Bool.not_eq_true', Bool.or_eq_false_iff,
    Bool.and_eq_false_iff, beq_eq_false_iff_ne, ne_eq] at h
  obtain ⟨⟨⟨⟨⟨h1, h2⟩, h3⟩, h4⟩, h5⟩, h6⟩ := h
  refine ⟨rType_row (by tauto), ?_⟩
  simp [encode, row, selector, Machine.Control.rType, Machine.aluControl, Machine.aluKey, h1, h2, h3,
    h4, h5]

theorem lw (rt : RegIdx) (offset : BitVec 16) (rs : RegIdx) : Statement (.lw rt offset rs) := fun _ =>
  ⟨by simp [Machine.controlDecode, encode, row,
      word_ne_zero (w := packI 35#6 rs rt offset) (by simp)], by simp [row, selector,
      Machine.Control.lw, Machine.aluControl, Machine.aluKey]⟩

theorem sw (rt : RegIdx) (offset : BitVec 16) (rs : RegIdx) : Statement (.sw rt offset rs) := fun _ =>
  ⟨by simp [Machine.controlDecode, encode, row,
      word_ne_zero (w := packI 43#6 rs rt offset) (by simp)], by simp [row, selector,
      Machine.Control.sw, Machine.aluControl, Machine.aluKey]⟩

theorem beq (rs rt : RegIdx) (offset : BitVec 16) : Statement (.beq rs rt offset) := fun _ =>
  ⟨by simp [Machine.controlDecode, encode, row,
      word_ne_zero (w := packI 4#6 rs rt offset) (by simp)], by simp [row, selector,
      Machine.Control.beq, Machine.aluControl, Machine.aluKey]⟩

theorem unknown (opcode : BitVec 6) (rest : BitVec 26) : Statement (.unknown opcode rest) := by
  intro h
  simp only [Instr.wf, namedOpCode, Bool.not_eq_true', Bool.or_eq_false_iff,
    beq_eq_false_iff_ne, ne_eq] at h
  obtain ⟨⟨⟨h1, h2⟩, h3⟩, h4⟩ := h
  refine ⟨?_, by simp [row, selector, Machine.Control.noOp, Machine.aluControl, Machine.aluKey]⟩
  simp [Machine.controlDecode, encode, row, h1, h2, h3, h4]

end Sys2Proof.Laws.ControlRow
end

