-- ==== Sys2Proof/Laws/Memory.lean ====
section
/-! SUPPORT. Memories: what a read after a store gives, and that every operation keeps the canonical form. -/

namespace Sys2Proof.Machine.Memory

theorem lookup_of_lt {words lo : Nat} {cells : List (Nat × Word)} {i : Nat}
    (h : cellsWf words lo cells = true) (hi : i < lo) : lookup cells i = 0#32 := by
  induction cells generalizing lo with
  | nil => rfl
  | cons c rest ih =>
    obtain ⟨j, u⟩ := c
    simp only [cellsWf, Bool.and_eq_true, decide_eq_true_eq] at h
    have hne : i ≠ j := by omega
    simp only [lookup, hne, if_false]
    exact ih h.2 (by omega)

/-- Reading any cell after writing one. -/
theorem lookup_insert {words lo : Nat} {cells : List (Nat × Word)} (i k : Nat) (v : Word)
    (h : cellsWf words lo cells = true) :
    lookup (insert cells i v) k = if k = i then v else lookup cells k := by
  induction cells generalizing lo with
  | nil =>
    by_cases hv : v = 0#32 <;> by_cases hk : k = i <;> simp [insert, lookup, hv, hk]
  | cons c rest ih =>
    obtain ⟨j, u⟩ := c
    simp only [cellsWf, Bool.and_eq_true, decide_eq_true_eq] at h
    obtain ⟨_, hrest⟩ := h
    simp only [insert]
    split
    · rename_i hij
      have h0 : lookup rest i = 0#32 := lookup_of_lt hrest (by omega)
      by_cases hv : v = 0#32
      · by_cases hk : k = i
        · subst hk
          have : k ≠ j := by omega
          simp [hv, lookup, this, h0]
        · simp [hv, hk]
      · simp [hv, lookup]
    · split
      · rename_i hij
        subst hij
        have h0 : lookup rest i = 0#32 := lookup_of_lt hrest (by omega)
        by_cases hv : v = 0#32 <;> by_cases hk : k = i <;> simp [hv, lookup, hk, h0]
      · rename_i hji hne
        simp only [lookup, ih hrest]
        by_cases hk : k = j
        · simp [hk, Ne.symm hne]
        · simp [hk]

theorem cellsWf_mono {words lo lo' : Nat} {cells : List (Nat × Word)}
    (h : cellsWf words lo cells = true) (hle : lo' ≤ lo) : cellsWf words lo' cells = true := by
  cases cells with
  | nil => rfl
  | cons c rest =>
    obtain ⟨j, u⟩ := c
    simp only [cellsWf, Bool.and_eq_true, decide_eq_true_eq] at h ⊢
    exact ⟨⟨⟨by omega, h.1.1.2⟩, h.1.2⟩, h.2⟩

/-- Writing a cell keeps the canonical form. -/
theorem cellsWf_insert {words lo : Nat} {cells : List (Nat × Word)} {i : Nat} (v : Word)
    (h : cellsWf words lo cells = true) (hlo : lo ≤ i) (hi : i < words) :
    cellsWf words lo (insert cells i v) = true := by
  induction cells generalizing lo with
  | nil => by_cases hv : v = 0#32 <;> simp [insert, cellsWf, hv, hlo, hi]
  | cons c rest ih =>
    obtain ⟨j, u⟩ := c
    have h' := h
    simp only [cellsWf, Bool.and_eq_true, decide_eq_true_eq] at h
    obtain ⟨⟨⟨hj, hjw⟩, hu⟩, hrest⟩ := h
    simp only [insert]
    split
    · rename_i hij
      by_cases hv : v = 0#32
      · simpa [hv] using h'
      · have : i + 1 ≤ j := hij
        simp [hv, cellsWf, hlo, hi, this, hjw, hu, hrest]
    · split
      · rename_i hij
        subst hij
        by_cases hv : v = 0#32
        · simpa [hv] using cellsWf_mono hrest (by omega : lo ≤ i + 1)
        · simp [hv, cellsWf, hlo, hi, hrest]
      · rename_i hji hne
        simp only [cellsWf, Bool.and_eq_true, decide_eq_true_eq]
        exact ⟨⟨⟨hj, hjw⟩, hu⟩, ih hrest (by omega)⟩

theorem cells_wf {m : Memory} {words : Nat} (h : m.wf words = true) : cellsWf words 0 m.cells = true := by
  simp only [wf, Bool.and_eq_true] at h
  exact h.2

theorem words_pos {m : Memory} {words : Nat} (h : m.wf words = true) : 0 < words := by
  simp only [wf, Bool.and_eq_true, decide_eq_true_eq] at h
  exact h.1.1

theorem words_le {m : Memory} {words : Nat} (h : m.wf words = true) : words ≤ 2 ^ 30 := by
  simp only [wf, Bool.and_eq_true, decide_eq_true_eq] at h
  exact h.1.2

theorem store_of_not_inRange {m : Memory} {words : Nat} {addr : Word} (v : Word)
    (h : inRange words addr = false) : m.store words addr v = m := by simp [store, h]

/-- Reading any cell after a store. -/
theorem cell_store {m : Memory} {words : Nat} (h : m.wf words = true) (addr v : Word) (k : Nat) :
    (m.store words addr v).cell k =
      if inRange words addr = true ∧ k = cellIndex addr then v else m.cell k := by
  by_cases hr : inRange words addr = true
  · simp [store, hr, cell, lookup_insert _ _ _ (cells_wf h)]
  · simp [store, hr]

/-- A store keeps the canonical form. -/
theorem store_wf {m : Memory} {words : Nat} (h : m.wf words = true) (addr v : Word) :
    (m.store words addr v).wf words = true := by
  by_cases hr : inRange words addr = true
  · have hi : cellIndex addr < words := by simpa [inRange] using hr
    simp only [wf, Bool.and_eq_true] at h ⊢
    simp only [store, hr, if_true]
    exact ⟨h.1, cellsWf_insert v h.2 (Nat.zero_le _) hi⟩
  · simpa [store, hr] using h

theorem blank_wf {words : Nat} (h0 : 0 < words) (h : words ≤ Config.maxWords) :
    Memory.blank.wf words = true := by simp [wf, Memory.blank, cellsWf, h0, h]

@[simp] theorem cell_blank (i : Nat) : Memory.blank.cell i = 0#32 := rfl

/-- Two canonical lists of cells that read the same are the same list. -/
theorem cells_ext {words lo : Nat} {a b : List (Nat × Word)} (ha : cellsWf words lo a = true)
    (hb : cellsWf words lo b = true) (h : ∀ i, lookup a i = lookup b i) : a = b := by
  induction a generalizing lo b with
  | nil =>
    cases b with
    | nil => rfl
    | cons c rest =>
      obtain ⟨j, u⟩ := c
      simp only [cellsWf, Bool.and_eq_true, decide_eq_true_eq] at hb
      exact absurd (by simpa [lookup] using (h j).symm) hb.1.2
  | cons c rest ih =>
    obtain ⟨j, u⟩ := c
    have ha' := ha
    simp only [cellsWf, Bool.and_eq_true, decide_eq_true_eq] at ha
    cases b with
    | nil => exact absurd (by simpa [lookup] using h j) ha.1.2
    | cons c' rest' =>
      obtain ⟨k, v⟩ := c'
      have hb' := hb
      simp only [cellsWf, Bool.and_eq_true, decide_eq_true_eq] at hb
      have hjk : j = k := by
        rcases Nat.lt_trichotomy j k with hlt | heq | hgt
        · have h1 : lookup ((k, v) :: rest') j = 0#32 := by
            have hne : j ≠ k := by omega
            simpa [lookup, hne] using lookup_of_lt hb.2 (by omega : j < k + 1)
          have h2 := h j
          rw [h1] at h2
          exact absurd (by simpa [lookup] using h2) ha.1.2
        · exact heq
        · have h1 : lookup ((j, u) :: rest) k = 0#32 := by
            have hne : k ≠ j := by omega
            simpa [lookup, hne] using lookup_of_lt ha.2 (by omega : k < j + 1)
          have h2 := h k
          rw [h1] at h2
          exact absurd (by simpa [lookup] using h2.symm) hb.1.2
      subst hjk
      have huv : u = v := by simpa [lookup] using h j
      subst huv
      have : rest = rest' := ih ha.2 hb.2 (fun i => by
        by_cases hi : i = j
        · subst hi
          rw [lookup_of_lt ha.2 (by omega), lookup_of_lt hb.2 (by omega)]
        · simpa [lookup, hi] using h i)
      rw [this]

/-- Two canonical memories of one capacity that read the same are equal data. -/
theorem ext_of_wf {a b : Memory} {words : Nat} (ha : a.wf words = true) (hb : b.wf words = true)
    (h : ∀ i, a.cell i = b.cell i) : a = b := by
  have hc : a.cells = b.cells := cells_ext (cells_wf ha) (cells_wf hb) h
  cases a; cases b; simp_all

/-- The two low address bits take no part (R52). -/
theorem cellIndex_eq (addr : Word) : cellIndex addr = addr.toNat / 4 := by
  simp [cellIndex, Nat.shiftRight_eq_div_pow]

end Sys2Proof.Machine.Memory
end

