-- ==== Sys2Proof/Laws/Registers.lean ====
section
/-! SUPPORT. What a read after a write of the register file gives (R22). -/

namespace Sys2Proof.Machine.RegFile

@[simp] theorem read_zero (x : RegFile) : RegFile.read x 0#5 = 0#32 := by simp [RegFile.read]

@[simp] theorem write_zero (x : RegFile) (v : Word) : RegFile.write x 0#5 v = x := by
  simp [RegFile.write]

/-- Reading any register after a write of any register. -/
theorem read_write (x : RegFile) (i j : RegIdx) (v : Word) :
    RegFile.read (RegFile.write x i v) j =
      if j = i then (if i = 0#5 then 0#32 else v) else RegFile.read x j := by
  by_cases hj : j = 0#5
  · subst hj
    by_cases hi : 0#5 = i
    · subst hi; simp
    · simp [hi]
  · by_cases hi : i = 0#5
    · subst hi; simp [hj]
    · by_cases hij : j = i
      · subst hij; simp [RegFile.read, RegFile.write, hj]
      · have : i.toNat ≠ j.toNat := fun h => hij (BitVec.eq_of_toNat_eq h).symm
        simp [RegFile.read, RegFile.write, hj, hi, hij, this]

@[simp] theorem read_write_self (x : RegFile) (i : RegIdx) (v : Word) :
    RegFile.read (RegFile.write x i v) i = if i = 0#5 then 0#32 else v := by simp [read_write]

@[simp] theorem read_write_of_ne (x : RegFile) {i j : RegIdx} (v : Word) (h : j ≠ i) :
    RegFile.read (RegFile.write x i v) j = RegFile.read x j := by simp [read_write, h]

/-- No write reaches the storage of register 0 (R22). -/
theorem write_slotZero (x : RegFile) (i : RegIdx) (v : Word) : (RegFile.write x i v)[0] = x[0] := by
  by_cases hi : i = 0#5
  · simp [hi]
  · have : i.toNat ≠ 0 := fun h => hi (BitVec.eq_of_toNat_eq (by simpa using h))
    simp [RegFile.write, hi, this]

end Sys2Proof.Machine.RegFile
end

