-- ==== Sys2Proof/Laws/State.lean ====
section
/-! SUPPORT. The small lemmas of State: every field after every update, so that no later proof unfolds the
sub-steps of a cycle or a record update. -/

namespace Sys2Proof.Machine

variable (w v addr : Word) (s : State) (n : Nat)

/-! ### Reset -/

@[simp] theorem resetWith_x (c : Config.Capacities) : (State.resetWith c).x = Vector.replicate 32 0#32 := rfl
@[simp] theorem resetWith_pc (c : Config.Capacities) : (State.resetWith c).pc = 0#32 := rfl
@[simp] theorem resetWith_maxPc (c : Config.Capacities) : (State.resetWith c).maxPc = 0#32 := rfl
@[simp] theorem resetWith_aluResult (c : Config.Capacities) : (State.resetWith c).aluResult = 0#32 := rfl
@[simp] theorem resetWith_fd (c : Config.Capacities) : (State.resetWith c).fd = ⟨⟨0#32, 0#32⟩, ⟨0#32, 0#32⟩⟩ := rfl
@[simp] theorem resetWith_dx (c : Config.Capacities) : (State.resetWith c).dx =
    ⟨⟨0#32, 0#32, 0#32, 0#32, 0#32, Control.allZero⟩, ⟨0#32, 0#32, 0#32, 0#32, 0#32, Control.allZero⟩⟩ := rfl
@[simp] theorem resetWith_xm (c : Config.Capacities) : (State.resetWith c).xm =
    ⟨⟨Control.allZero, 0#32, 0#32, 0#32, false, 0#5⟩, ⟨Control.allZero, 0#32, 0#32, 0#32, false, 0#5⟩⟩ := rfl
@[simp] theorem resetWith_mw (c : Config.Capacities) : (State.resetWith c).mw =
    ⟨⟨Control.allZero, 0#32, 0#5, 0#32⟩, ⟨Control.allZero, 0#32, 0#5, 0#32⟩⟩ := rfl
@[simp] theorem resetWith_imem (c : Config.Capacities) : (State.resetWith c).imem = Memory.blank := rfl
@[simp] theorem resetWith_dmem (c : Config.Capacities) : (State.resetWith c).dmem = Memory.blank := rfl
@[simp] theorem resetWith_capacities (c : Config.Capacities) : (State.resetWith c).capacities = c := rfl
@[simp] theorem resetWith_freeCount (c : Config.Capacities) : (State.resetWith c).freeCount = 0 := rfl

/-! ### A working cycle, in terms of the write slots it found -/

@[simp] theorem workingCycle_x : (workingCycle w s).x =
    if s.mw.w.ctrl.regWrite then RegFile.write s.x s.mw.w.dest (writeBackValue s.mw.w) else s.x := rfl
@[simp] theorem workingCycle_pc : (workingCycle w s).pc =
    if branchTaken s.xm.w then s.xm.w.branchTarget else nextPc s.pc := rfl
@[simp] theorem workingCycle_maxPc : (workingCycle w s).maxPc = s.maxPc := rfl
@[simp] theorem workingCycle_aluResult :
    (workingCycle w s).aluResult = dispatchAlu s.dx.w s.aluResult := rfl
@[simp] theorem workingCycle_fd : (workingCycle w s).fd = ⟨s.fd.w, ⟨w, nextPc s.pc⟩⟩ := rfl
@[simp] theorem workingCycle_dx : (workingCycle w s).dx =
    ⟨s.dx.w,
      { instr := s.fd.w.instr
        pc4 := s.fd.w.pc4
        rd1 := (workingCycle w s).reg (rsOf s.fd.w.instr)
        rd2 := (workingCycle w s).reg (rtOf s.fd.w.instr)
        imm := sext32 (offsetOf s.fd.w.instr)
        ctrl := controlDecode s.fd.w.instr }⟩ := rfl
@[simp] theorem workingCycle_xm : (workingCycle w s).xm =
    ⟨s.xm.w,
      { ctrl := s.dx.w.ctrl
        rd2 := s.dx.w.rd2
        branchTarget := branchTarget s.dx.w.pc4 s.dx.w.imm
        aluResult := dispatchAlu s.dx.w s.aluResult
        zero := zeroFlag (dispatchAlu s.dx.w s.aluResult)
        dest := destination s.dx.w }⟩ := rfl
@[simp] theorem workingCycle_mw : (workingCycle w s).mw =
    ⟨s.mw.w,
      { ctrl := s.xm.w.ctrl
        aluResult := s.xm.w.aluResult
        dest := s.xm.w.dest
        readData :=
          if s.xm.w.ctrl.memRead then s.dmem.load s.capacities.dmemWords s.xm.w.aluResult s.freeCount
          else 0#32 }⟩ := rfl
@[simp] theorem workingCycle_capacities : (workingCycle w s).capacities = s.capacities := rfl
@[simp] theorem workingCycle_imem : (workingCycle w s).imem = s.imem := rfl
@[simp] theorem workingCycle_dmem : (workingCycle w s).dmem =
    if s.xm.w.ctrl.memWrite then s.dmem.store s.capacities.dmemWords s.xm.w.aluResult s.xm.w.rd2 else s.dmem := rfl
@[simp] theorem workingCycle_freeCount : (workingCycle w s).freeCount =
    if s.xm.w.ctrl.memRead then Memory.loadCount s.capacities.dmemWords s.xm.w.aluResult s.freeCount
    else s.freeCount := rfl

/-! ### The cycle that fetches at `pc` -/

theorem cycle_eq : cycle s = workingCycle (iMemRead s s.pc) s := rfl
@[simp] theorem cycle_x : (cycle s).x =
    if s.mw.w.ctrl.regWrite then RegFile.write s.x s.mw.w.dest (writeBackValue s.mw.w) else s.x := rfl
@[simp] theorem cycle_pc : (cycle s).pc =
    if branchTaken s.xm.w then s.xm.w.branchTarget else nextPc s.pc := rfl
@[simp] theorem cycle_maxPc : (cycle s).maxPc = s.maxPc := rfl
@[simp] theorem cycle_aluResult : (cycle s).aluResult = dispatchAlu s.dx.w s.aluResult := rfl
@[simp] theorem cycle_fd : (cycle s).fd = ⟨s.fd.w, ⟨iMemRead s s.pc, nextPc s.pc⟩⟩ := rfl
@[simp] theorem cycle_dx : (cycle s).dx =
    ⟨s.dx.w,
      { instr := s.fd.w.instr
        pc4 := s.fd.w.pc4
        rd1 := (cycle s).reg (rsOf s.fd.w.instr)
        rd2 := (cycle s).reg (rtOf s.fd.w.instr)
        imm := sext32 (offsetOf s.fd.w.instr)
        ctrl := controlDecode s.fd.w.instr }⟩ := rfl
@[simp] theorem cycle_xm : (cycle s).xm =
    ⟨s.xm.w,
      { ctrl := s.dx.w.ctrl
        rd2 := s.dx.w.rd2
        branchTarget := branchTarget s.dx.w.pc4 s.dx.w.imm
        aluResult := dispatchAlu s.dx.w s.aluResult
        zero := zeroFlag (dispatchAlu s.dx.w s.aluResult)
        dest := destination s.dx.w }⟩ := rfl
@[simp] theorem cycle_mw : (cycle s).mw =
    ⟨s.mw.w,
      { ctrl := s.xm.w.ctrl
        aluResult := s.xm.w.aluResult
        dest := s.xm.w.dest
        readData :=
          if s.xm.w.ctrl.memRead then s.dmem.load s.capacities.dmemWords s.xm.w.aluResult s.freeCount
          else 0#32 }⟩ := rfl
@[simp] theorem cycle_capacities : (cycle s).capacities = s.capacities := rfl
@[simp] theorem cycle_imem : (cycle s).imem = s.imem := rfl
@[simp] theorem cycle_dmem : (cycle s).dmem =
    if s.xm.w.ctrl.memWrite then s.dmem.store s.capacities.dmemWords s.xm.w.aluResult s.xm.w.rd2 else s.dmem := rfl
@[simp] theorem cycle_freeCount : (cycle s).freeCount =
    if s.xm.w.ctrl.memRead then Memory.loadCount s.capacities.dmemWords s.xm.w.aluResult s.freeCount
    else s.freeCount := rfl

/-! ### The loader's updates -/

@[simp] theorem hostDataWrite_x : (hostDataWrite addr v s).x = s.x := rfl
@[simp] theorem hostDataWrite_imem : (hostDataWrite addr v s).imem = s.imem := rfl
@[simp] theorem hostDataWrite_dmem : (hostDataWrite addr v s).dmem = s.dmem.store s.capacities.dmemWords addr v := rfl
@[simp] theorem hostDataWrite_capacities : (hostDataWrite addr v s).capacities = s.capacities := rfl
@[simp] theorem hostDataWrite_maxPc : (hostDataWrite addr v s).maxPc = s.maxPc := rfl
@[simp] theorem setMaxPc_x : (setMaxPc v s).x = s.x := rfl
@[simp] theorem setMaxPc_imem : (setMaxPc v s).imem = s.imem := rfl
@[simp] theorem setMaxPc_dmem : (setMaxPc v s).dmem = s.dmem := rfl
@[simp] theorem setMaxPc_capacities : (setMaxPc v s).capacities = s.capacities := rfl
@[simp] theorem setMaxPc_maxPc : (setMaxPc v s).maxPc = v := rfl
@[simp] theorem placeNext_pc : (placeNext w s).pc = s.pc := rfl
@[simp] theorem placeNext_capacities : (placeNext w s).capacities = s.capacities := rfl
@[simp] theorem placeNext_imem : (placeNext w s).imem = s.imem.store s.capacities.imemWords s.pc w := rfl
@[simp] theorem placeNext_maxPc : (placeNext w s).maxPc =
    if s.running && s.launchable then s.maxPc else topMaxPc s := rfl

/-! ### The snapshot -/

@[simp] theorem snapshot_pc (h : Hardware) : (snapshot h).pc = h.pc := rfl
@[simp] theorem snapshot_maxPc (h : Hardware) : (snapshot h).maxPc = h.maxPc := rfl
@[simp] theorem snapshot_fd (h : Hardware) : (snapshot h).fd = h.fd := rfl
@[simp] theorem snapshot_dx (h : Hardware) : (snapshot h).dx = h.dx := rfl
@[simp] theorem snapshot_xm (h : Hardware) : (snapshot h).xm = h.xm := rfl
@[simp] theorem snapshot_mw (h : Hardware) : (snapshot h).mw = h.mw := rfl
@[simp] theorem snapshot_x (h : Hardware) : (snapshot h).x = h.x := rfl
@[simp] theorem snapshot_imem (h : Hardware) : (snapshot h).imem = h.imem := rfl
@[simp] theorem snapshot_dmem (h : Hardware) : (snapshot h).dmem = h.dmem := rfl

/-! ### The reference machine's state -/

@[simp] theorem arch_x : s.arch.x = s.x := rfl
@[simp] theorem arch_dmem : s.arch.dmem = s.dmem := rfl
@[simp] theorem arch_aluResult : s.arch.aluResult = s.aluResult := rfl
@[simp] theorem arch_freeCount : s.arch.freeCount = s.freeCount := rfl

end Sys2Proof.Machine
end

