-- ==== Sys2Proof/Laws/Step.lean ====
section
/-! SUPPORT. What one call of `Step()` can do, said once. -/

namespace Sys2Proof.Machine

/-- Every meaning is the working cycle that fetches the instruction's word. -/
theorem exec_eq_workingCycle (i : Instr) (s : State) :
    exec i s = .next (workingCycle (encode i) s) := by cases i <;> rfl

/-- A working call is the cycle that fetches the word at `pc`. -/
theorem step_of_working {s : State} (h : Working s) : step s = .next (cycle s) := by
  simp [step, h.1, h.2, exec_eq_workingCycle, encode_decode, cycle]

/-- A call the guard stops changes nothing. -/
theorem step_of_not_running {s : State} (h : s.running = false) : step s = .next s := by
  simp [step, h]

/-- A call that passes the guard in a launch that breaks the premise is declined. -/
theorem step_of_not_launchable {s : State} (h : s.running = true) (hl : s.launchable = false) :
    step s = .refused .launchPremise := by simp [step, h, hl]

/-- Everything one call can do. -/
theorem step_cases (s : State) :
    (s.running = false ∧ step s = .next s) ∨ (Working s ∧ step s = .next (cycle s)) ∨
      (s.running = true ∧ s.launchable = false ∧ step s = .refused .launchPremise) := by
  cases hr : s.running
  · exact .inl ⟨rfl, step_of_not_running hr⟩
  · cases hl : s.launchable
    · exact .inr (.inr ⟨rfl, rfl, step_of_not_launchable hr hl⟩)
    · exact .inr (.inl ⟨⟨hr, hl⟩, step_of_working ⟨hr, hl⟩⟩)

/-- If a call answers a next state, it is the old one or the one after a working cycle. -/
theorem step_next {s t : State} (h : step s = .next t) :
    (s.running = false ∧ t = s) ∨ (Working s ∧ t = cycle s) := by
  rcases step_cases s with ⟨hr, h'⟩ | ⟨hw, h'⟩ | ⟨_, _, h'⟩ <;> rw [h'] at h
  · exact .inl ⟨hr, by cases h; rfl⟩
  · exact .inr ⟨hw, by cases h; rfl⟩
  · cases h

@[simp] theorem cycles_zero (s : State) : cycles 0 s = s := rfl
theorem cycles_succ (n : Nat) (s : State) : cycles (n + 1) s = cycle (cycles n s) := rfl

theorem cycles_add (m n : Nat) (s : State) : cycles (n + m) s = cycles n (cycles m s) := by
  induction n with
  | zero => simp
  | succ n ih => rw [Nat.add_right_comm, cycles_succ, cycles_succ, ih]

/-- Working calls, one after another. -/
theorem run_of_working {s : State} (n : Nat) (h : ∀ j < n, Working (cycles j s)) :
    Sys2Proof.core.run n s = .next (cycles n s) := by
  induction n generalizing s with
  | zero => rfl
  | succ n ih =>
    have h0 : Sys2Proof.core.step s = .next (cycle s) := step_of_working (h 0 (Nat.succ_pos n))
    have hs : ∀ j, cycles j (cycle s) = cycles (j + 1) s := fun j => by
      rw [cycles_add 1 j s]; rfl
    simp only [Host.Core.run, h0]
    rw [ih (fun j hj => by rw [hs]; exact h (j + 1) (by omega)), hs]

/-- A working cycle keeps both memories canonical. -/
theorem workingCycle_dmem_wf {s : State} (h : s.dmem.wf s.capacities.dmemWords = true) (w : Word) :
    (workingCycle w s).dmem.wf s.capacities.dmemWords = true := by
  rw [workingCycle_dmem]; split
  · exact Memory.store_wf h _ _
  · exact h

/-- The loader's accesses keep both memories canonical. -/
theorem loaderAct_wf {a : LoaderAction} {s t : State} (hi : s.imem.wf s.capacities.imemWords = true)
    (hd : s.dmem.wf s.capacities.dmemWords = true) (h : loaderAct a s = .next t) :
    t.imem.wf t.capacities.imemWords = true ∧ t.dmem.wf t.capacities.dmemWords = true := by
  cases a with
  | regWrite i v =>
    simp only [loaderAct, hostRegWrite] at h
    split at h
    · cases h; exact ⟨hi, hd⟩
    · cases h
  | instrWrite addr v =>
    simp only [loaderAct, hostInstrWrite] at h
    split at h
    · cases h; exact ⟨Memory.store_wf hi _ _, hd⟩
    · cases h
  | dataWrite addr v => cases h; exact ⟨hi, Memory.store_wf hd _ _⟩
  | setMaxPc v => cases h; exact ⟨hi, hd⟩

/-- A step changes no capacity. -/
theorem step_capacities {s t : State} (h : step s = .next t) : t.capacities = s.capacities := by
  rcases step_next h with ⟨_, rfl⟩ | ⟨_, rfl⟩ <;> rfl

/-- The loader's accesses change no capacity. -/
theorem loaderAct_capacities {a : LoaderAction} {s t : State} (h : loaderAct a s = .next t) :
    t.capacities = s.capacities := by
  cases a with
  | regWrite i v =>
    simp only [loaderAct, hostRegWrite] at h
    split at h <;> cases h
    rfl
  | instrWrite addr v =>
    simp only [loaderAct, hostInstrWrite] at h
    split at h <;> cases h
    rfl
  | dataWrite addr v => cases h; rfl
  | setMaxPc v => cases h; rfl

end Sys2Proof.Machine
end

