-- ==== Sys2Proof/Laws/Course.lean ====
section
/-! SUPPORT. One word followed through the pipeline: what each buffer holds of it after each Step, whatever else is in
flight (R142). A statement about an instruction's passage cites these and unfolds no stage. `course w s` is `s` after
the cycle that fetches `w`; `cycle` gives the states after it. -/

namespace Sys2Proof.Machine

/-- The function code the ALU-control decoder sees is FUNCT of the word (R105). -/
@[simp] theorem functInput_sext (w : Word) :
    (sext32 (offsetOf w)).extractLsb' 0 6 = functOf w := by
  ext i hi
  have h16 : i < 16 := by omega
  have h32 : i < 32 := by omega
  simp only [sext32, offsetOf, functOf, BitVec.getElem_extractLsb', Nat.zero_add,
    BitVec.getLsbD_signExtend, BitVec.getLsbD_extractLsb', h16, h32, decide_true, Bool.true_and,
    if_true]

/-- What the dispatch of a word leaves in `alu_result`, its operands read in state `t` (R112, R136). -/
def courseResult (w : Word) (t : State) : Word :=
  alu (aluControl (controlDecode w).aluOp1 (controlDecode w).aluOp0 (functOf w)) (t.reg (rsOf w))
    (if (controlDecode w).aluSrc then sext32 (offsetOf w) else t.reg (rtOf w)) t.aluResult

/-- The destination register of a word (R136). -/
def courseDest (w : Word) : RegIdx := if (controlDecode w).regDst then rdOf w else rtOf w

/-- A DX slot holds the word `w`, fetched at `p`, its registers read in state `t` (R137). -/
def InDecode (w p : Word) (t : State) (d : DxSlot) : Prop :=
  d = ⟨w, nextPc p, t.reg (rsOf w), t.reg (rtOf w), sext32 (offsetOf w), controlDecode w⟩

/-- An XM slot holds the word `w`, fetched at `p`, its registers read in state `t`, its ALU result `result` (R136). -/
def InExecute (w p : Word) (t : State) (result : Word) (m : XmSlot) : Prop :=
  m = ⟨controlDecode w, t.reg (rtOf w), branchTarget (nextPc p) (sext32 (offsetOf w)), result,
    zeroFlag result, courseDest w⟩

variable {w p : Word} {s t : State}

/-- Step s + 1 of a word in FD. -/
theorem decode_step (h : s.fd.w = ⟨w, nextPc p⟩) : InDecode w p (cycle s) (cycle s).dx.w := by
  simp only [InDecode, cycle_dx, h]

/-- Step s + 2 of a word in DX, read in the state this Step finds. -/
theorem execute_step (h : InDecode w p s s.dx.w) :
    (cycle s).aluResult = courseResult w s ∧
      InExecute w p s (courseResult w s) (cycle s).xm.w := by
  have hd : dispatchAlu s.dx.w s.aluResult = courseResult w s := by
    rw [h]; simp only [dispatchAlu, functInput, operandA, operandB, courseResult, functInput_sext]
  refine ⟨hd, ?_⟩
  simp only [InExecute, cycle_xm, hd]
  rw [h]
  rfl

/-- The passage of an instruction whose four later calls work, with its word in DX after Step s + 1: all that the rest
of the passage depends on is the state `s2` after that Step. -/
theorem passage_of_staysWorking {i : Instr} {s : State} (h : StaysWorking i s) :
    ∃ s2, Passage i s (workingCycle (encode i) s) s2 (cycle s2) (cycle (cycle s2))
        (cycle (cycle (cycle s2))) ∧
      s2 = cycle (workingCycle (encode i) s) ∧ InDecode (encode i) s.pc s2 s2.dx.w :=
  ⟨_, ⟨exec_eq_workingCycle i s, step_of_working h.1, step_of_working h.2.1,
    step_of_working h.2.2.1, step_of_working h.2.2.2⟩, rfl, decode_step rfl⟩

/-- A word without a branch, a load or a store leaves `pc`, data memory and the free count alone in Step s + 3. -/
theorem memory_step_quiet (hb : s.xm.w.ctrl.branch = false) (hr : s.xm.w.ctrl.memRead = false)
    (hw : s.xm.w.ctrl.memWrite = false) :
    (cycle s).pc = nextPc s.pc ∧ (cycle s).dmem = s.dmem ∧ (cycle s).freeCount = s.freeCount := by
  simp [branchTaken, hb, hr, hw]

/-- Step s + 4: the one register written (R134). -/
theorem writeBack_step (h : s.mw.w.ctrl.regWrite = true) (r : RegIdx) :
    (cycle s).reg r =
      if r = s.mw.w.dest then (if r = 0#5 then 0#32 else writeBackValue s.mw.w) else s.reg r := by
  have : (cycle s).reg r =
      RegFile.read (RegFile.write s.x s.mw.w.dest (writeBackValue s.mw.w)) r := by
    simp only [Hardware.reg, cycle_x, h, if_true]
  rw [this, RegFile.read_write]
  by_cases hr : r = s.mw.w.dest
  · subst hr; simp
  · simp [hr, Hardware.reg]

/-- The whole course of a word with the R-type row (R170), from its DX slot on. -/
theorem rType_course {rd : RegIdx} (hd : InDecode w p s s.dx.w)
    (hc : controlDecode w = Control.rType) (hrd : rdOf w = rd) :
    RTypeCourse rd (courseResult w s) s (cycle s) (cycle (cycle s)) (cycle (cycle (cycle s))) := by
  obtain ⟨ha, hx⟩ := execute_step hd
  generalize hs3 : cycle s = s3 at *
  have hctrl : s3.xm.w.ctrl = Control.rType := by rw [hx]; exact hc
  have hdest : s3.xm.w.dest = rd := by rw [hx]; simp [courseDest, hc, Control.rType, hrd]
  have hres : s3.xm.w.aluResult = courseResult w s := by rw [hx]
  obtain ⟨hp, hm, hf⟩ := memory_step_quiet (s := s3) (by rw [hctrl]; rfl) (by rw [hctrl]; rfl)
    (by rw [hctrl]; rfl)
  have hmd : (cycle s3).mw.w.dest = rd := by simpa using hdest
  have hval : writeBackValue (cycle s3).mw.w = courseResult w s := by
    simp [writeBackValue, hctrl, Control.rType, hres]
  have hwb := writeBack_step (s := cycle s3) (by simp [hctrl, Control.rType])
  refine ⟨by rw [hd]; exact hc, ha, hres, by rw [hx], hdest, hp, hm, hf, ?_, ?_⟩
  · rw [hwb, hmd, hval]; simp
  · intro r hr; rw [hwb, hmd]; simp [hr]

/-- A word whose row has RegWrite 0 writes no register in Step s + 4. -/
theorem writeBack_step_quiet (h : s.mw.w.ctrl.regWrite = false) : (cycle s).x = s.x := by
  simp only [cycle_x, h, Bool.false_eq_true, if_false]

/-- The whole course of a word with the no-op row (R210, R211), from its DX slot on. -/
theorem noOp_course (hd : InDecode w p s s.dx.w) (hc : controlDecode w = Control.noOp) :
    NoOpCourse s (cycle s) (cycle (cycle s)) (cycle (cycle (cycle s))) := by
  have hres : courseResult w s = s.aluResult := by
    simp [courseResult, hc, Control.noOp, aluControl, aluKey, alu]
  obtain ⟨ha, hx⟩ := execute_step hd
  rw [hres] at ha hx
  generalize hs3 : cycle s = s3 at *
  have hctrl : s3.xm.w.ctrl = Control.noOp := by rw [hx]; exact hc
  obtain ⟨hp, hm, hf⟩ := memory_step_quiet (s := s3) (by rw [hctrl]; rfl) (by rw [hctrl]; rfl)
    (by rw [hctrl]; rfl)
  exact ⟨by rw [hd]; exact hc, ha, by rw [hx], by rw [hx], hp, hm, hf,
    writeBack_step_quiet (s := cycle s3) (by simp [hctrl, Control.noOp])⟩

end Sys2Proof.Machine
end

