-- ==== Sys2Proof/Tests/Slice0.lean ====
section
/-! SUPPORT. The model's own tests. Expected values are those of the spec: its worked examples and its vectors S0 to S4
and V1 to V8 (spec/95_test_vectors.md), named in each docstring. After them, for every obligation with hypotheses, a
state and operands that meet them all. -/

namespace Sys2Proof.Machine.Tests

/-! ### Helpers -/

/-- A launched machine with 16 cells in each memory and MAX_PC = 63, the highest its instruction memory allows. -/
def ready : State := { State.resetWith ⟨16, 16⟩ with maxPc := 63#32 }

/-- `s` with registers loaded. -/
def withRegs (regs : List (RegIdx × Word)) (s : State) : State :=
  { s with x := regs.foldl (fun x r => RegFile.write x r.1 r.2) s.x }

/-- `s` with the cells of the instruction memory set. -/
def withImem (cells : List (Nat × Word)) (s : State) : State := { s with imem := ⟨cells⟩ }

/-- `s` with the cells of the data memory set. -/
def withDmem (cells : List (Nat × Word)) (s : State) : State := { s with dmem := ⟨cells⟩ }

/-- The state after one call of `Step()`. -/
def after (s : State) : State :=
  match step s with
  | .next t => t
  | .fault _ => s
  | .refused _ => s

/-- The R-type vector `110000010`. -/
def vecR : Control := ⟨true, true, false, false, false, false, false, true, false⟩
/-- The lw vector `000101011`. -/
def vecLw : Control := ⟨false, false, false, true, false, true, false, true, true⟩
/-- The sw vector `000100100`. -/
def vecSw : Control := ⟨false, false, false, true, false, false, true, false, false⟩
/-- The beq vector `001010000`. -/
def vecBeq : Control := ⟨false, false, true, false, true, false, false, false, false⟩
/-- The no-op vector `011000000`. -/
def vecNop : Control := ⟨false, true, true, false, false, false, false, false, false⟩

/-- `ready` with a word in the Decode to Execute buffer, fetched at 0, and its two operands. -/
def inDx (w : Word) (ctrl : Control) (rd1 rd2 imm held : Word) : State :=
  { ready with aluResult := held, dx := ⟨ready.dx.r, ⟨w, 4#32, rd1, rd2, imm, ctrl⟩⟩ }

/-- `ready` with an instruction in the Execute to Memory buffer. -/
def inXm (ctrl : Control) (addr data target : Word) (zero : Bool) (dest : RegIdx) : State :=
  { ready with xm := ⟨ready.xm.r, ⟨ctrl, data, target, addr, zero, dest⟩⟩ }

/-- `ready` with an instruction in the Memory to Write-Back buffer. -/
def inMw (ctrl : Control) (result : Word) (dest : RegIdx) (readData : Word) : State :=
  { ready with mw := ⟨ready.mw.r, ⟨ctrl, result, dest, readData⟩⟩ }

/-! ### Well-formedness: an ill-formed term for each check -/

theorem test_wf_rtypeOther_named_funct : (Instr.rtypeOther 3#5 1#5 2#5 0#5 0x20#6).wf = false := by decide
theorem test_wf_rtypeOther_zero_word : (Instr.rtypeOther 0#5 0#5 0#5 0#5 0#6).wf = false := by decide
theorem test_wf_unknown_named_opcode :
    (Instr.unknown 0#6 1#26).wf = false ∧ (Instr.unknown 4#6 0#26).wf = false ∧
      (Instr.unknown 35#6 0#26).wf = false ∧ (Instr.unknown 43#6 0#26).wf = false := by decide

/-! ### Encodings (V1, S0c) -/

/-- V1. -/
theorem test_decode_nop : decode 0x00000000#32 = .nop := by decide
/-- V1. -/
theorem test_decode_add : decode 0x00221820#32 = .add 3#5 1#5 2#5 0#5 := by decide
/-- V1. -/
theorem test_decode_sub : decode 0x00221822#32 = .sub 3#5 1#5 2#5 0#5 := by decide
/-- V1. -/
theorem test_decode_and : decode 0x00221824#32 = .and 3#5 1#5 2#5 0#5 := by decide
/-- V1. -/
theorem test_decode_or : decode 0x00221825#32 = .or 3#5 1#5 2#5 0#5 := by decide
/-- V1; with SHAMT 10, S0c row 3. -/
theorem test_decode_slt : decode 0x0022182A#32 = .slt 3#5 1#5 2#5 0#5 ∧
    decode 0x02AAAAAA#32 = .slt 21#5 21#5 10#5 10#5 := by decide
/-- R176: "the MIPS encoding of `sll $1,$2,3`" is the fallback; S0b, last row. -/
theorem test_decode_rtypeOther : decode 0x000208C0#32 = .rtypeOther 1#5 0#5 2#5 3#5 0#6 ∧
    decode 0x00000001#32 = .rtypeOther 0#5 0#5 0#5 0#5 1#6 := by decide
/-- V1. -/
theorem test_decode_lw : decode 0x8CC5FFFC#32 = .lw 5#5 0xFFFC#16 6#5 := by decide
/-- V1. -/
theorem test_decode_sw : decode 0xAC870008#32 = .sw 7#5 8#16 4#5 := by decide
/-- V1. -/
theorem test_decode_beq : decode 0x1022FFFD#32 = .beq 1#5 2#5 0xFFFD#16 := by decide
/-- S0b. -/
theorem test_decode_unknown : decode 0x20010005#32 = .unknown 8#6 0x0010005#26 ∧
    decode 0xFFFFFFFF#32 = .unknown 63#6 0x3FFFFFF#26 := by decide

/-- V1, the other way. -/
theorem test_encode_words :
    encode (.add 31#5 31#5 31#5 0#5) = 0x03FFF820#32 ∧ encode (.add 0#5 1#5 2#5 0#5) = 0x00220020#32 ∧
    encode (.lw 31#5 0x7FFF#16 31#5) = 0x8FFF7FFF#32 ∧ encode (.sw 31#5 0x8000#16 31#5) = 0xAFFF8000#32 ∧
    encode (.beq 0#5 0#5 0xFFF7#16) = 0x1000FFF7#32 ∧ encode .nop = 0x00000000#32 := by decide

/-- S0c. -/
theorem test_encoders :
    encodeRType 0 1 2 3 0 0x20 = 0x00221820#32 ∧ encodeRType 63 31 31 31 31 63 = 0xFFFFFFFF#32 ∧
    encodeIType 35 6 5 (-4) = 0x8CC5FFFC#32 ∧ encodeIType 43 31 31 (-32768) = 0xAFFF8000#32 ∧
    encodeIType 35 31 31 32767 = 0x8FFF7FFF#32 ∧ sext32 (offsetOf 0x8CC5FFFC#32) = 0xFFFFFFFC#32 := by decide

/-- The host's two entries: the table's bit numbering is the word's own, and more than one word is no instruction. -/
theorem test_decodeTableWord : decodeTableWord 32 0x00221820 = some (.add 3#5 1#5 2#5 0#5) ∧
    decodeTableWord 64 0 = none := by decide

/-! ### Decoders and ALU (S0, S0b, V2, V3) -/

/-- S0b. -/
theorem test_controlDecode :
    controlDecode 0x00221820#32 = vecR ∧ controlDecode 0x8C020000#32 = vecLw ∧
    controlDecode 0xAC010000#32 = vecSw ∧ controlDecode 0x10000002#32 = vecBeq ∧
    controlDecode 0x00000000#32 = vecNop ∧ controlDecode 0x20010005#32 = vecNop ∧
    controlDecode 0x08000000#32 = vecNop ∧ controlDecode 0xFFFFFFFF#32 = vecNop ∧
    controlDecode 0x00000001#32 = vecR := by decide

/-- V2. -/
theorem test_aluControl :
    aluControl false false 0x2A#6 = 2#4 ∧ aluControl false true 0x22#6 = 6#4 ∧
    aluControl true false 0x20#6 = 2#4 ∧ aluControl true false 0x22#6 = 6#4 ∧
    aluControl true false 0x24#6 = 0#4 ∧ aluControl true false 0x25#6 = 1#4 ∧
    aluControl true false 0x2A#6 = 7#4 ∧ aluControl true false 0x21#6 = 0#4 ∧
    aluControl true true 0x20#6 = 8#4 := by decide

/-- S0 and V3, the computing selectors. -/
theorem test_alu_computes :
    alu 2#4 5#32 3#32 9#32 = 8#32 ∧ alu 6#4 5#32 3#32 9#32 = 2#32 ∧
    zeroFlag (alu 6#4 6#32 6#32 9#32) = true ∧ alu 0#4 0xF0#32 0x0F#32 9#32 = 0#32 ∧
    alu 1#4 0xF0#32 0x0F#32 9#32 = 0xFF#32 ∧ alu 2#4 0x80000000#32 0x80000000#32 9#32 = 0#32 ∧
    alu 6#4 3#32 5#32 9#32 = 0xFFFFFFFE#32 ∧ alu 6#4 0x80000000#32 1#32 9#32 = 0x7FFFFFFF#32 := by decide

/-- V3, the retaining selectors. -/
theorem test_alu_retains :
    alu 7#4 5#32 7#32 12#32 = 12#32 ∧ zeroFlag (alu 7#4 5#32 7#32 0#32) = true ∧
    alu 3#4 1#32 1#32 0x55#32 = 0x55#32 ∧ alu 5#4 9#32 9#32 0xFFFFFFFF#32 = 0xFFFFFFFF#32 ∧
    alu 8#4 0#32 0#32 12#32 = 12#32 := by decide

/-! ### One step, the stages of a cycle (S1) -/

/-- S1, Step 1: what the first call of a launched machine leaves. -/
theorem test_step_first :
    let t := after (withImem [(0, 0x00221820#32)] ready)
    t.pc = 4#32 ∧ t.fd.w = ⟨0x00221820#32, 4#32⟩ ∧ t.dx.w.ctrl = vecNop ∧ t.xm.w.ctrl = Control.allZero ∧
      t.xm.w.zero = true ∧ t.mw.w.readData = 0#32 := by decide

/-- S1, Step 2: Decode. -/
theorem test_step_decode :
    let s := withRegs [(1#5, 5#32), (2#5, 7#32)] ready
    (after { s with fd := ⟨s.fd.r, ⟨0x00221820#32, 4#32⟩⟩ }).dx.w =
      ⟨0x00221820#32, 4#32, 5#32, 7#32, 0x1820#32, vecR⟩ := by decide

/-- R140: the register Write-Back writes is seen by Decode of the same cycle. -/
theorem test_step_decode_sees_writeBack :
    let s := inMw vecR 12#32 3#5 0#32
    (after { s with fd := ⟨s.fd.r, ⟨0x00632020#32, 4#32⟩⟩ }).dx.w.rd1 = 12#32 := by decide

/-- S4, V8.4: past MAX_PC and without MAX_PC nothing changes and the answer is "halt". -/
theorem test_step_halted :
    after { ready with pc := 64#32 } = { ready with pc := 64#32 } ∧
      after { ready with maxPc := 0#32 } = { ready with maxPc := 0#32 } ∧
      answer { ready with pc := 64#32 } { ready with pc := 64#32 } = .halt := by decide

/-- R139: the last working call answers "halt", the one before it "continue". -/
theorem test_step_answers :
    answer { ready with pc := 56#32 } (after { ready with pc := 56#32 }) = .cont ∧
      answer { ready with pc := 60#32 } (after { ready with pc := 60#32 }) = .halt := by decide

/-- R229: the run ends at the call that moves `pc` past MAX_PC. -/
theorem test_callerLoop_ends :
    (match callerLoop 9 { ready with pc := 60#32 } with
      | .next (t, .halt) => t.pc == 64#32
      | .next (_, .cont) => false
      | .fault _ => false
      | .refused _ => false) = true := by decide

/-- R228: a launch with MAX_PC = 4 * IMEM_WORDS is declined. -/
theorem test_step_launch_premise : ∃ r, step { ready with maxPc := 64#32 } = .refused r := ⟨_, rfl⟩

/-! ### One step, the instructions -/

/-- S1, Step 3. -/
theorem test_add_executes :
    (after (inDx 0x00221820#32 vecR 5#32 7#32 0x1820#32 0#32)).xm.w =
      ⟨vecR, 7#32, 24708#32, 12#32, false, 3#5⟩ := by decide
/-- S1, Step 5; V4.1: destination 0 discards. -/
theorem test_add_writes :
    (after (inMw vecR 12#32 3#5 0#32)).reg 3#5 = 12#32 ∧ (after (inMw vecR 12#32 0#5 0#32)).x = ready.x := by
  decide
/-- V4.2: `x[rs] - x[rt]`, wrapping. -/
theorem test_sub_executes :
    (after (inDx 0x00221822#32 vecR 3#32 5#32 0x1822#32 0#32)).aluResult = 0xFFFFFFFE#32 := by decide
/-- V4.5. -/
theorem test_and_executes :
    (after (inDx 0x00221824#32 vecR 0xF0F0#32 0xFF00#32 0x1824#32 9#32)).aluResult = 0xF000#32 := by decide
/-- V4.5. -/
theorem test_or_executes :
    (after (inDx 0x00222025#32 vecR 0xF0F0#32 0xFF00#32 0x2025#32 9#32)).aluResult = 0xFFF0#32 := by decide
/-- V4.6: the slot latches the stale result, not 1. -/
theorem test_slt_executes :
    (after (inDx 0x0022202A#32 vecR 5#32 7#32 0x202A#32 12#32)).xm.w.aluResult = 12#32 := by decide
/-- V4.11. -/
theorem test_rtypeOther_executes :
    (after (inDx 0x00221821#32 vecR 6#32 3#32 0x1821#32 9#32)).aluResult = 2#32 := by decide
/-- V5.1: the address; V5.2: the cell that contains a misaligned address. -/
theorem test_lw_executes :
    (after (inDx 0x8CC5FFFC#32 vecLw 12#32 0#32 0xFFFFFFFC#32 0#32)).xm.w.aluResult = 8#32 ∧
      (after (withDmem [(1, 0xBEEF#32)] (inXm vecLw 7#32 0#32 0#32 false 5#5))).mw.w =
        ⟨vecLw, 7#32, 5#5, 0xBEEF#32⟩ := by decide
/-- V5.1: the loaded word is written; V5.6: out of range the access is counted and nothing else happens to memory. -/
theorem test_lw_writes :
    (after (inMw vecLw 8#32 5#5 0xCAFE#32)).reg 5#5 = 0xCAFE#32 ∧
      (after (inXm vecLw 64#32 0#32 0#32 false 5#5)).freeCount = 1 ∧
      (after (inXm vecLw 64#32 0#32 0#32 false 5#5)).dmem = ready.dmem := by decide
/-- V5.3: the whole cell that contains the address; V5.4, V5.5: the last cell and the first address beyond it. -/
theorem test_sw_stores :
    (after (inXm vecSw 10#32 0xABCD#32 0#32 false 7#5)).dmem.cells = [(2, 0xABCD#32)] ∧
      (after (inXm vecSw 60#32 0xABCD#32 0#32 false 7#5)).dmem.cells = [(15, 0xABCD#32)] ∧
      (after (inXm vecSw 64#32 0xABCD#32 0#32 false 7#5)).dmem = ready.dmem := by decide
/-- R191: "rt = 0 stores 0"; the cell leaves the canonical list. -/
theorem test_sw_stores_zero :
    (after (withDmem [(2, 5#32)] (inXm vecSw 8#32 0#32 0#32 false 0#5))).dmem.cells = [] := by decide
/-- S3, Step 3: the difference, Zero and the target of a `beq`. -/
theorem test_beq_executes :
    (after (inDx 0x10000002#32 vecBeq 0#32 0#32 2#32 9#32)).xm.w =
      ⟨vecBeq, 0#32, 12#32, 0#32, true, 0#5⟩ := by decide
/-- S3, Step 4: taken, and the word at `pc` is fetched all the same with its own address plus 4; V6.1: not taken. -/
theorem test_beq_steers :
    let s := withImem [(3, 0x00213020#32)] { inXm vecBeq 0#32 0#32 20#32 true 0#5 with pc := 12#32 }
    (after s).pc = 20#32 ∧ (after s).fd.w = ⟨0x00213020#32, 16#32⟩ ∧
      (after { inXm vecBeq 1#32 0#32 20#32 false 0#5 with pc := 12#32 }).pc = 16#32 := by decide
/-- V4.8: a `nop` does not refresh the result. -/
theorem test_nop_executes :
    (after (inDx 0#32 vecNop 0#32 0#32 0#32 12#32)).xm.w = ⟨vecNop, 0#32, 4#32, 12#32, false, 0#5⟩ := by decide
/-- V8.1: the unknown opcode changes nothing. -/
theorem test_unknown_executes :
    (after (inDx 0x20010005#32 vecNop 0#32 0#32 5#32 12#32)).aluResult = 12#32 ∧
      (after (inMw vecNop 12#32 1#5 9#32)).x = ready.x := by decide

/-! ### The host port (S0a, R223) -/

/-- S0a. -/
theorem test_host_registers :
    (match hostRegWrite 5 0xDEADBEEF#32 ready with
      | .next t => t.reg 5#5 == 0xDEADBEEF#32
      | .fault _ => false
      | .refused _ => false) = true ∧
    hostIndex 32 = none ∧ hostIndex (-1) = none ∧ hostIndex 31 = some 31#5 := by decide

/-- R223: the low bits are ignored and a write out of range is swallowed. -/
theorem test_host_data : (hostDataRead 11#32 (hostDataWrite 8#32 7#32 ready)).1 = 7#32 ∧
    hostDataWrite 64#32 7#32 ready = ready := by decide

/-- The placed word runs next, from reset too (log 6). -/
theorem test_withFetchWord :
    ((State.reset.withFetchWord 32 0x00221820).running = true) ∧
      (State.reset.withFetchWord 32 0x00221820).launchable = true ∧
      iMemRead (State.reset.withFetchWord 32 0x00221820) 0#32 = 0x00221820#32 := by decide

/-! ### Witnesses: the instruction word -/

theorem witness_ready_works : Working ready ∧ decode (iMemRead ready ready.pc) = .nop := by decide

theorem witness_StepRunsDecodedInstruction :
    let s := withImem [(15, 0x00221820#32)] { ready with pc := 60#32 }
    Working s ∧ decode (iMemRead s s.pc) = .add 3#5 1#5 2#5 0#5 := by decide

theorem witness_DecodeEncodeAgree :
    (Instr.rtypeOther 0#5 0#5 0#5 0#5 1#6).wf = true ∧ (Instr.unknown 63#6 0#26).wf = true := by decide

theorem witness_WordsAndInstructionsCorrespond :
    (Instr.rtypeOther 31#5 31#5 31#5 31#5 63#6).wf = true ∧ (Instr.unknown 1#6 0x3FFFFFF#26).wf = true := by decide

theorem witness_EncoderFieldsReadBack :
    ((63 : Nat) < 64 ∧ (31 : Nat) < 32 ∧ (0 : Nat) < 64) ∧
      (-32768 : Int) ≤ -32768 ∧ (-32768 : Int) ≤ 32767 ∧ (32767 : Int) ≤ 32767 := by decide

/-- A word for each row of R78, at the ends of OpCode's and FUNCT's ranges where a row has a range. -/
theorem witness_OpcodeMapRows :
    (0x00000020#32).toNat % 64 = 0x20 ∧ (0x00000022#32).toNat % 64 = 0x22 ∧ (0x00000024#32).toNat % 64 = 0x24 ∧
    (0x00000025#32).toNat % 64 = 0x25 ∧ (0x0000002A#32).toNat % 64 = 0x2A ∧
    ((0x0000003F#32).toNat % 64 = 63 ∧ (0x0000003F#32).toNat / 2 ^ 26 = 0) ∧
    (0x8C000000#32).toNat / 2 ^ 26 = 35 ∧ (0xAC000000#32).toNat / 2 ^ 26 = 43 ∧
    (0x10000000#32).toNat / 2 ^ 26 = 4 ∧ (0x04000000#32).toNat / 2 ^ 26 = 1 ∧
    (0xFC000000#32).toNat / 2 ^ 26 = 63 := by decide

theorem witness_AluControlTable :
    (0#6 ≠ 0x20#6 ∧ 0#6 ≠ 0x22#6 ∧ 0#6 ≠ 0x24#6 ∧ 0#6 ≠ 0x25#6 ∧ 0#6 ≠ 0x2A#6) ∧
      (63#6 ≠ 0x20#6 ∧ 63#6 ≠ 0x22#6 ∧ 63#6 ≠ 0x24#6 ∧ 63#6 ≠ 0x25#6 ∧ 63#6 ≠ 0x2A#6) := by decide

theorem witness_AluRetainsOnOtherSelectors : ∀ op ∈ [3#4, 7#4, 8#4, 15#4],
    op ≠ 0#4 ∧ op ≠ 1#4 ∧ op ≠ 2#4 ∧ op ≠ 6#4 := by decide

/-! ### Witnesses: registers and memories -/

theorem witness_RegisterZeroHardWired :
    ((1 : Int) ≤ 1 ∧ (31 : Int) ≤ 31 ∧ (0 : Int) ≠ 1) ∧
      Working (inMw vecR 12#32 0#5 0#32) ∧ (inMw vecR 12#32 0#5 0#32).mw.w.ctrl.regWrite = true ∧
      (inMw vecR 12#32 0#5 0#32).mw.w.dest = 0#5 := by decide

theorem witness_HostIndexOutOfRangeFails : ((-1 : Int) < 0) ∧ ((32 : Int) ≤ 32) := by decide

/-- The last cell and the first address beyond it. -/
theorem witness_StoreReplacesOneCell : ready.dmem.wf ready.capacities.dmemWords = true ∧
    (63#32).toNat / 4 < ready.capacities.dmemWords ∧ ready.capacities.dmemWords ≤ (64#32).toNat / 4 := by decide

theorem witness_LoadDeliversCell :
    (63#32).toNat / 4 < ready.capacities.dmemWords ∧ ready.capacities.dmemWords ≤ (0xFFFFFFFC#32).toNat / 4 := by decide

theorem witness_BranchTargetArithmetic : (0xFFFFFFFC#32).toNat % 4 = 0 := by decide

/-! ### Witnesses: one call -/

theorem witness_UnloadedMachineNeverRuns :
    State.reset.maxPc = 0#32 ∧ (withImem [(0, 0x00221820#32)] { ready with maxPc := 0#32 }).maxPc = 0#32 := by decide

theorem witness_HaltedMachineStays :
    ({ ready with pc := 64#32 } : State).maxPc.toNat < ({ ready with pc := 64#32 } : State).pc.toNat := by decide

/-- The last working call and the one before it. -/
theorem witness_WorkingCallAnswersByNewPc :
    Working { ready with pc := 60#32 } ∧ Working { ready with pc := 56#32 } := by decide

/-- The highest MAX_PC of a legal launch and the lowest of an illegal one. -/
theorem witness_StepNeverRaises :
    ready.maxPc.toNat < 4 * ready.capacities.imemWords ∧
      (∃ r, step { ready with maxPc := 64#32 } = .refused r) := ⟨by decide, _, rfl⟩

theorem witness_FetchStaysInRange : Working { ready with pc := 63#32 } := by decide

theorem witness_FlushPromotesWriteSlots : Working (inDx 0x00221820#32 vecR 5#32 7#32 0x1820#32 0#32) := by decide

theorem witness_ForwardPassCarriesFields : Working (inXm vecLw 8#32 0#32 0#32 false 5#5) := by decide

theorem witness_WriteBackWritesOneRegister :
    (Working (inMw vecLw 8#32 31#5 9#32) ∧ (inMw vecLw 8#32 31#5 9#32).mw.w.ctrl.regWrite = true) ∧
      Working (inMw vecSw 8#32 31#5 9#32) ∧ (inMw vecSw 8#32 31#5 9#32).mw.w.ctrl.regWrite = false := by decide

theorem witness_MemoryStageAccesses :
    (Working (inXm vecLw 64#32 0#32 0#32 false 5#5) ∧
      (inXm vecLw 64#32 0#32 0#32 false 5#5).xm.w.ctrl.memRead = true ∧
      (inXm vecLw 64#32 0#32 0#32 false 5#5).xm.w.ctrl.memWrite = false) ∧
    Working (inXm vecSw 60#32 1#32 0#32 false 5#5) ∧
      (inXm vecSw 60#32 1#32 0#32 false 5#5).xm.w.ctrl.memRead = false ∧
      (inXm vecSw 60#32 1#32 0#32 false 5#5).xm.w.ctrl.memWrite = true := by decide

theorem witness_ExecuteStageComputes : Working (inDx 0x8CC5FFFC#32 vecLw 12#32 0#32 0xFFFFFFFC#32 0#32) := by decide

theorem witness_DecodeStageReads :
    Working { ready with fd := ⟨ready.fd.r, ⟨0x00221820#32, 4#32⟩⟩ } := by decide

theorem witness_FetchStageSteers : Working (inXm vecBeq 0#32 0#32 20#32 true 0#5) := by decide

/-- A cycle that writes a register, one that stores, one that dispatches an implemented selector, one that does not. -/
theorem witness_CycleFrame :
    (ready.dmem.wf ready.capacities.dmemWords = true ∧ exec .nop ready = .next (workingCycle 0#32 ready) ∧
      ready.mw.w.ctrl.regWrite = false ∧ ready.xm.w.ctrl.memWrite = false ∧ ready.xm.w.ctrl.memRead = false) ∧
    1#5 ≠ (inMw vecR 12#32 3#5 0#32).mw.w.dest ∧
    Memory.inRange (inXm vecSw 64#32 1#32 0#32 false 5#5).capacities.dmemWords 64#32 = false ∧ 14 ≠ cellIndex 60#32 ∧
    aluControl vecNop.aluOp1 vecNop.aluOp0 0#6 = 8#4 := ⟨⟨by decide, rfl, by decide⟩, by decide⟩

theorem witness_InstructionMemoryIsConstant : Sys2Proof.core.run 2 ready = .next (cycles 2 ready) :=
  run_of_working 2 (by decide)

/-! ### Witnesses: the passages -/

/-- `ready` with registers 1 and 2 equal and 3 different, from which a passage starts. -/
def start : State := withRegs [(1#5, 60#32), (2#5, 60#32), (3#5, 64#32)] ready

theorem witness_AddCourse : StaysWorking (.add 3#5 1#5 2#5 0#5) start := by unfold StaysWorking; decide
theorem witness_SubCourse : StaysWorking (.sub 0#5 1#5 2#5 31#5) start := by unfold StaysWorking; decide
theorem witness_AndCourse : StaysWorking (.and 31#5 1#5 2#5 0#5) start := by unfold StaysWorking; decide
theorem witness_OrCourse : StaysWorking (.or 3#5 0#5 0#5 0#5) start := by unfold StaysWorking; decide
theorem witness_SltSlotCourse : StaysWorking (.slt 4#5 1#5 2#5 0#5) start := by unfold StaysWorking; decide
theorem witness_RtypeOtherCourse : (Instr.rtypeOther 1#5 0#5 2#5 3#5 0#6).wf = true ∧
    StaysWorking (.rtypeOther 1#5 0#5 2#5 3#5 0#6) start := by unfold StaysWorking; decide
/-- The last cell, and the first address beyond it. -/
theorem witness_LwCourse :
    (StaysWorking (.lw 5#5 0#16 1#5) start ∧
      Memory.inRange start.capacities.dmemWords (effectiveAddress (start.reg 1#5) 0#16) = true) ∧
      StaysWorking (.lw 5#5 0#16 3#5) start ∧
      Memory.inRange start.capacities.dmemWords (effectiveAddress (start.reg 3#5) 0#16) = false := by
  unfold StaysWorking; decide
/-- The last cell, and the first address beyond it. -/
theorem witness_SwCourse : start.dmem.wf start.capacities.dmemWords = true ∧
    (StaysWorking (.sw 3#5 0#16 1#5) start ∧
      Memory.inRange start.capacities.dmemWords (effectiveAddress (start.reg 1#5) 0#16) = true) ∧
      StaysWorking (.sw 3#5 0#16 3#5) start ∧
      Memory.inRange start.capacities.dmemWords (effectiveAddress (start.reg 3#5) 0#16) = false := by
  unfold StaysWorking; decide
/-- Equal registers and different ones. -/
theorem witness_BeqCourse :
    (StaysWorking (.beq 1#5 2#5 5#16) start ∧ start.reg 1#5 = start.reg 2#5) ∧
      StaysWorking (.beq 1#5 3#5 5#16) start ∧ start.reg 1#5 ≠ start.reg 3#5 := by unfold StaysWorking; decide
theorem witness_NopCourse : StaysWorking .nop start := by unfold StaysWorking; decide
theorem witness_UnknownCourse : 63#6 ≠ 0#6 ∧ 63#6 ≠ 4#6 ∧ 63#6 ≠ 35#6 ∧ 63#6 ≠ 43#6 ∧
    StaysWorking (.unknown 63#6 0x3FFFFFF#26) start := by unfold StaysWorking; decide

theorem witness_BranchShadow : StaysWorking (.beq 1#5 2#5 5#16) start ∧ start.xm.w.ctrl.branch = false ∧
    start.dx.w.ctrl.branch = false ∧ (controlDecode start.fd.w.instr).branch = false := by
  unfold StaysWorking; decide

/-! ### Witnesses: runs -/

/-- `beq $0,$0,4` at 0 (V6.3): taken in Step 4. -/
def branching : State := withImem [(0, 0x10000004#32)] ready

theorem witness_FetchRecurrence :
    (Launched branching ∧ (∀ j ≤ 3, Working (cycles j branching)) ∧ fetched branching 0 = .beq 0#5 0#5 4#16) ∧
      Launched ready ∧ (∀ j ≤ 3, Working (cycles j ready)) ∧ fetched ready 0 = .nop := by unfold Launched; decide

/-- MAX_PC = 4 * (1 - 1) + 16, the least with which one instruction retires; and one less. -/
theorem witness_StraightLineDrains :
    (Launched { ready with maxPc := 16#32 } ∧ (16#32).toNat < 0xFFFFFFFC ∧
      (∀ i, opCodeOf (({ ready with maxPc := 16#32 } : State).imem.cell i) ≠ 4#6)) ∧
    Launched { ready with maxPc := 15#32 } ∧
      (∀ i, opCodeOf (({ ready with maxPc := 15#32 } : State).imem.cell i) ≠ 4#6) :=
  ⟨⟨by unfold Launched; decide, by decide, fun _ => by simp [ready]⟩, by unfold Launched; decide,
    fun _ => by simp [ready]⟩

/-- MAX_PC = 16: five calls (S1). -/
theorem witness_StraightLineRunEnds : Launched { ready with maxPc := 16#32 } ∧ (16#32).toNat < 0xFFFFFFFC ∧
    (∀ i, opCodeOf (({ ready with maxPc := 16#32 } : State).imem.cell i) ≠ 4#6) ∧ 4 ≤ (16#32).toNat / 4 ∧
    (16#32).toNat / 4 < 5 :=
  ⟨by unfold Launched; decide, by decide, fun _ => by simp [ready], by decide⟩

theorem witness_ResetContentIsHarmless : Launched ready ∧ ∀ j < 3, Working (cycles j ready) := by
  unfold Launched; decide

/-- A `sw` at `start` and the `lw` behind it, in the memory that `start` fetches from (S2). -/
def storing : State := withImem [(1, 0x8C250000#32)] start

theorem witness_LoadBehindStoreGetsIt :
    let s1 := workingCycle (encode (.sw 3#5 0#16 1#5)) storing
    storing.dmem.wf storing.capacities.dmemWords = true ∧
    Passage (.sw 3#5 0#16 1#5) storing s1 (cycles 1 s1) (cycles 2 s1) (cycles 3 s1) (cycles 4 s1) ∧
    Passage (.lw 5#5 0#16 1#5) s1 (cycles 1 s1) (cycles 2 s1) (cycles 3 s1) (cycles 4 s1) (cycles 5 s1) ∧
    Working s1 ∧ (∀ j < 5, Working (cycles j s1)) ∧
    cellIndex (effectiveAddress ((cycles 1 s1).reg 1#5) 0#16) =
      cellIndex (effectiveAddress ((cycles 2 s1).reg 1#5) 0#16) ∧
    Memory.inRange storing.capacities.dmemWords (effectiveAddress ((cycles 1 s1).reg 1#5) 0#16) = true := by
  have hw : ∀ j < 5, Working (cycles j (workingCycle (encode (.sw 3#5 0#16 1#5)) storing)) := by decide
  refine ⟨by decide, ⟨rfl, step_of_working (hw 0 (by decide)), step_of_working (hw 1 (by decide)),
    step_of_working (hw 2 (by decide)), step_of_working (hw 3 (by decide))⟩, ⟨?_,
    step_of_working (hw 1 (by decide)), step_of_working (hw 2 (by decide)), step_of_working (hw 3 (by decide)),
    step_of_working (hw 4 (by decide))⟩, hw 0 (by decide), hw, by decide, by decide⟩
  rw [exec_eq_workingCycle]
  rfl

/-- `add $3,$1,$2`, two `nop`, `add $4,$3,$3` (V7.3): the consumer at distance 3. -/
def spaced : State :=
  withRegs [(1#5, 5#32), (2#5, 7#32)] (withImem [(0, 0x00221820#32), (3, 0x00632020#32)] ready)

theorem witness_PipelineEqualsSequential :
    Launched spaced ∧ (∀ j < 8, Working (cycles j spaced)) ∧ HazardFree spaced 3 := by
  refine ⟨by unfold Launched; decide, by decide, fun j d hjd hd => ?_⟩
  have hj : j = 0 ∨ j = 1 ∨ j = 2 := by omega
  rcases hd with rfl | rfl <;> rcases hj with rfl | rfl | rfl <;> first | omega | decide

/-! ### Witnesses: reset, the loader, the invariant -/

theorem witness_ResetState : State.reset = State.reset ∨ ∃ t, State.reset = resetMachine t := .inl rfl

/-- The loader of scenario A (S1). -/
def scenarioA : List LoaderAction :=
  [.instrWrite 0#32 0x00221820#32, .regWrite 1 5#32, .regWrite 2 7#32, .setMaxPc 16#32]

theorem witness_LoaderReachesLaunch : ∃ t, ready.imem.wf ready.capacities.imemWords = true ∧
    ready.dmem.wf ready.capacities.dmemWords = true ∧
    loaderRun scenarioA (resetMachine ready) = .next t ∧ t.launchable = true :=
  ⟨_, by decide, by decide, rfl, by decide⟩

theorem witness_LoaderOrderIsFree :
    (∃ t, loaderRun [.regWrite 1 5#32, .regWrite 31 7#32] ready = .next t) ∧
    DifferentTargets (.regWrite 1 5#32) (.regWrite 31 7#32) ∧
    (∃ t, loaderRun [.instrWrite 60#32 5#32, .instrWrite 59#32 7#32] ready = .next t) ∧
    DifferentTargets (.instrWrite 60#32 5#32) (.instrWrite 59#32 7#32) ∧
    DifferentTargets (.dataWrite 60#32 5#32) (.dataWrite 64#32 7#32) ∧
    DifferentTargets (.dataWrite 0#32 5#32) (.setMaxPc 16#32) :=
  ⟨⟨_, rfl⟩, by simp [DifferentTargets], ⟨_, rfl⟩, by unfold DifferentTargets; decide,
    by unfold DifferentTargets; decide, trivial⟩

/-- The last cell and the first address beyond it. -/
theorem witness_LoaderStopsAtInstructionStore :
    ready.capacities.imemWords ≤ (64#32).toNat / 4 ∧ (63#32).toNat / 4 < ready.capacities.imemWords ∧
      ready.capacities.dmemWords ≤ (64#32).toNat / 4 := by decide

/-- A running machine, one that has passed MAX_PC, and reset. -/
theorem witness_PlacedWordRunsNext :
    (ready.imem.wf ready.capacities.imemWords = true ∧
      Memory.inRange ready.capacities.imemWords ready.pc = true ∧ 0xFFFFFFFF < 2 ^ 32) ∧
      Memory.inRange ready.capacities.imemWords ({ ready with pc := 60#32, maxPc := 4#32 } : State).pc = true ∧
      State.reset.imem.wf State.reset.capacities.imemWords = true ∧
      Memory.inRange State.reset.capacities.imemWords State.reset.pc = true := by decide

theorem witness_StepKeepsInvariant : branching.Inv ∧ ∃ t, step branching = .next t := by
  refine ⟨⟨by decide, by decide, by decide, by decide, by decide, by decide, ?_, ?_, ?_, ?_, ?_, ?_⟩,
    _, step_of_working (by decide)⟩
  · unfold DxSlot.Ok; decide
  · unfold DxSlot.Ok; decide
  · unfold XmSlot.Ok; decide
  · unfold XmSlot.Ok; decide
  · unfold MwSlot.Ok; decide
  · unfold MwSlot.Ok; decide

theorem witness_CapacitiesAreConfiguration : (Sys2Proof.core.run 2 ready = .next (cycles 2 ready)) ∧
    (∃ t, loaderRun scenarioA ready = .next t) ∧
    ready.toHardware = ({ ready with capacities := ⟨8, 16⟩ } : State).toHardware ∧
    ready.capacities.dmemWords = ({ ready with capacities := ⟨8, 16⟩ } : State).capacities.dmemWords :=
  ⟨run_of_working 2 (by decide), ⟨_, rfl⟩, rfl, rfl⟩

/-- Both sides of the equivalence: states that differ in the ALU result alone, and states that differ in MAX_PC. -/
theorem witness_SnapshotIsAllButAluResult :
    snapshot { ready.toHardware with aluResult := 7#32 } = snapshot ready.toHardware ∧
      snapshot { ready.toHardware with maxPc := 16#32 } ≠ snapshot ready.toHardware ∧ Working ready := by decide

end Sys2Proof.Machine.Tests
end

section
/-! Runs of calls and of loader accesses taken apart at their first move, what each move keeps carried through a whole
run, and the obligation about the capacities (O59). -/

namespace Sys2Proof.Machine

/-! ### Runs of `Step()` -/

/-- A run of `n + 1` calls that answers a state is one call that answers a state and a run of `n` calls from there. -/
theorem run_succ_eq_next {n : Nat} {s t : State} :
    Sys2Proof.core.run (n + 1) s = .next t ↔
      ∃ u, step s = .next u ∧ Sys2Proof.core.run n u = .next t := by
  have hcore : Sys2Proof.core.step s = step s := rfl
  simp only [Host.Core.run, hcore]
  cases step s <;> simp

/-- What every call of `Step()` keeps, a run of any length keeps. -/
theorem run_preserves {P : State → Prop} (hstep : ∀ s t, step s = .next t → P s → P t)
    {n : Nat} {s t : State} (h : Sys2Proof.core.run n s = .next t) (hs : P s) : P t := by
  induction n generalizing s with
  | zero => cases h; exact hs
  | succ n ih =>
    obtain ⟨u, hu, hrest⟩ := run_succ_eq_next.mp h
    exact ih hrest (hstep s u hu hs)

/-- No number of calls changes a capacity. -/
theorem run_capacities {n : Nat} {s t : State} (h : Sys2Proof.core.run n s = .next t) :
    t.capacities = s.capacities :=
  run_preserves (P := fun u => u.capacities = s.capacities)
    (fun _ _ hstep hs => (step_capacities hstep).trans hs) h rfl

/-! ### Runs of the loader -/

/-- A loader's run that succeeds is a first access that succeeds and a run of the others from there. -/
theorem loaderRun_cons_eq_next {a : LoaderAction} {rest : List LoaderAction} {s t : State} :
    loaderRun (a :: rest) s = .next t ↔
      ∃ u, loaderAct a s = .next u ∧ loaderRun rest u = .next t := by
  rw [loaderRun]
  cases loaderAct a s <;> simp

/-- What every access of the loader keeps, any list of accesses keeps. -/
theorem loaderRun_preserves {P : State → Prop} (hact : ∀ a s t, loaderAct a s = .next t → P s → P t)
    {actions : List LoaderAction} {s t : State} (h : loaderRun actions s = .next t) (hs : P s) : P t := by
  induction actions generalizing s with
  | nil => cases h; exact hs
  | cons a rest ih =>
    obtain ⟨u, hu, hrest⟩ := loaderRun_cons_eq_next.mp h
    exact ih hrest (hact a s u hu hs)

/-- No list of loader accesses changes a capacity. -/
theorem loaderRun_capacities {actions : List LoaderAction} {s t : State}
    (h : loaderRun actions s = .next t) : t.capacities = s.capacities :=
  loaderRun_preserves (P := fun u => u.capacities = s.capacities)
    (fun _ _ _ hact hs => (loaderAct_capacities hact).trans hs) h rfl

/-! ### Reset, and what a cycle depends on -/

@[simp] theorem resetMachine_capacities (s : State) : (resetMachine s).capacities = s.capacities := rfl

/-- Only the Memory stage sees a capacity, and it sees DMEM_WORDS (R53, R135). -/
theorem hardwareCycle_congr_dmemWords {c d : Config.Capacities} (h : c.dmemWords = d.dmemWords)
    (word : Word) (hw : Hardware) : hardwareCycle c word hw = hardwareCycle d word hw := by
  simp only [hardwareCycle, h]

/-- The meaning of an instruction, as a cycle of the hardware alone. -/
theorem exec_eq_hardwareCycle (i : Instr) (s : State) :
    exec i s = .next { s with toHardware := hardwareCycle s.capacities (encode i) s.toHardware } :=
  exec_eq_workingCycle i s

/-- Settles O59: a run keeps the capacities as each of its moves does, and the hardware state after a cycle is
`hardwareCycle` of the hardware state before it, in which DMEM_WORDS alone of the capacities is used. -/
theorem capacitiesAreConfiguration : Obligations.CapacitiesAreConfiguration := by
  refine ⟨fun _ _ _ => run_capacities, fun _ _ _ => loaderRun_capacities, resetMachine_capacities, ?_⟩
  intro s t i hhw hwords
  refine ⟨hardwareCycle s.capacities (encode i) s.toHardware, exec_eq_hardwareCycle i s, ?_⟩
  rw [hhw, hardwareCycle_congr_dmemWords hwords]
  exact exec_eq_hardwareCycle i t

end Sys2Proof.Machine
end

section
/-! Obligations about the state: what the invariant's clauses rest on and that every step keeps it (O57), reset (O52, O58),
the signals of a word (O8), the hard-wired register and the host's register indexes (O12, O13), and the frame of a cycle and
of a run (O31, O32, O33). -/

namespace Sys2Proof.Machine

/-! ### The control vector of a word -/

/-- R100 read by rows: which words get which control vector. -/
theorem controlDecode_cases (w : Word) :
    (w = 0#32 ∧ controlDecode w = Control.noOp) ∨
    (w ≠ 0#32 ∧ opCodeOf w = 0#6 ∧ controlDecode w = Control.rType) ∨
    (opCodeOf w = 35#6 ∧ controlDecode w = Control.lw) ∨
    (opCodeOf w = 43#6 ∧ controlDecode w = Control.sw) ∨
    (opCodeOf w = 4#6 ∧ controlDecode w = Control.beq) ∨
    (opCodeOf w ≠ 0#6 ∧ opCodeOf w ≠ 35#6 ∧ opCodeOf w ≠ 43#6 ∧ opCodeOf w ≠ 4#6 ∧
      controlDecode w = Control.noOp) := by
  unfold controlDecode
  split_ifs <;> simp [*]

/-- Every vector the decoder answers is a row of the table. -/
theorem controlDecode_legal (w : Word) : (controlDecode w).legal = true := by
  rcases controlDecode_cases w with ⟨_, h⟩ | ⟨_, _, h⟩ | ⟨_, h⟩ | ⟨_, h⟩ | ⟨_, h⟩ | ⟨_, _, _, _, h⟩ <;>
    rw [h] <;> rfl

/-- Settles O8: the rows of R100 one by one, each with the OpCode that selects it. -/
theorem signalsBelongToTheirOpcodes : Obligations.SignalsBelongToTheirOpcodes := by
  intro w
  rcases controlDecode_cases w with
    ⟨rfl, h⟩ | ⟨hw, hop, h⟩ | ⟨hop, h⟩ | ⟨hop, h⟩ | ⟨hop, h⟩ | ⟨h0, h35, h43, h4, h⟩
  · simp [h, Control.noOp]
  · simp [h, Control.rType, hw, hop]
  · simp [h, Control.lw, hop]
  · simp [h, Control.sw, hop]
  · simp [h, Control.beq, hop]
  · simp [h, Control.noOp, h0, h35, h43, h4]

/-! ### Aligned addresses -/

theorem aligned_iff (a : Word) : Aligned a ↔ a.toNat % 4 = 0 := by
  simp [Aligned, ← BitVec.toNat_inj]

theorem aligned_nextPc {pc : Word} (h : Aligned pc) : Aligned (nextPc pc) := by
  rw [aligned_iff] at h ⊢
  simp only [nextPc, BitVec.toNat_add, BitVec.toNat_ofNat]
  omega

theorem aligned_branchTarget {pc4 : Word} (h : Aligned pc4) (imm : Word) :
    Aligned (branchTarget pc4 imm) := by
  rw [aligned_iff] at h ⊢
  simp only [branchTarget, BitVec.toNat_add, BitVec.toNat_shiftLeft, Nat.shiftLeft_eq]
  omega

/-! ### A working cycle keeps the invariant -/

/-- Write-Back leaves the storage of register 0 alone. -/
theorem workingCycle_slotZero (w : Word) (s : State) : (workingCycle w s).x[0] = s.x[0] := by
  simp only [workingCycle_x]
  split
  · exact RegFile.write_slotZero _ _ _
  · rfl

/-- The next `pc` is the target latched in XM or the address after `pc` (R138). -/
theorem workingCycle_pc_aligned {s : State} (hpc : Aligned s.pc) (hxm : s.xm.w.Ok) (w : Word) :
    Aligned (workingCycle w s).pc := by
  obtain ⟨htarget, _, _⟩ := hxm
  rw [workingCycle_pc]
  split
  · exact htarget
  · exact aligned_nextPc hpc

/-- What Decode writes into DX. -/
theorem workingCycle_dx_ok {s : State} (h : Aligned s.fd.w.pc4) (w : Word) : (workingCycle w s).dx.w.Ok :=
  ⟨h, rfl, controlDecode_legal _⟩

/-- What Execute writes into XM. -/
theorem workingCycle_xm_ok {s : State} (h : s.dx.w.Ok) (w : Word) : (workingCycle w s).xm.w.Ok := by
  obtain ⟨hpc4, _, hctrl⟩ := h
  exact ⟨aligned_branchTarget hpc4 _, fun hz => eq_of_beq hz, hctrl⟩

/-- What the Memory stage writes into MW. -/
theorem workingCycle_mw_ok {s : State} (h : s.xm.w.Ok) (w : Word) : (workingCycle w s).mw.w.Ok := by
  obtain ⟨_, _, hctrl⟩ := h
  refine ⟨fun hr => ?_, hctrl⟩
  have hr' : s.xm.w.ctrl.memRead = false := hr
  simp [hr']

/-- A working cycle, whatever word it fetches, keeps the invariant: every read slot takes over the write slot it found, and
every write slot is filled from what the slot before it held. -/
theorem workingCycle_inv {s : State} (h : s.Inv) (w : Word) : (workingCycle w s).Inv where
  imemWf := h.imemWf
  dmemWf := workingCycle_dmem_wf h.dmemWf w
  zeroRegister := (workingCycle_slotZero w s).trans h.zeroRegister
  pcAligned := workingCycle_pc_aligned h.pcAligned h.xmWrite w
  fdRead := h.fdWrite
  fdWrite := aligned_nextPc h.pcAligned
  dxRead := h.dxWrite
  dxWrite := workingCycle_dx_ok h.fdWrite w
  xmRead := h.xmWrite
  xmWrite := workingCycle_xm_ok h.dxWrite w
  mwRead := h.mwWrite
  mwWrite := workingCycle_mw_ok h.xmWrite w

/-- Settles O57: a call that answers a next state left the state alone or was a working cycle. -/
theorem stepKeepsInvariant : Obligations.StepKeepsInvariant := by
  intro s t hinv hstep
  rcases step_next hstep with ⟨_, rfl⟩ | ⟨_, rfl⟩
  · exact hinv
  · exact workingCycle_inv hinv _

/-! ### Reset -/

/-- A machine reset with capacities R5 allows meets the invariant, whatever its count of free values. -/
theorem resetWith_inv {c : Config.Capacities} (hi : 0 < c.imemWords) (hi' : c.imemWords ≤ Config.maxWords)
    (hd : 0 < c.dmemWords) (hd' : c.dmemWords ≤ Config.maxWords) (n : Nat) :
    State.Inv { State.resetWith c with freeCount := n } where
  imemWf := Memory.blank_wf hi hi'
  dmemWf := Memory.blank_wf hd hd'
  zeroRegister := rfl
  pcAligned := rfl
  fdRead := rfl
  fdWrite := rfl
  dxRead := ⟨rfl, rfl, rfl⟩
  dxWrite := ⟨rfl, rfl, rfl⟩
  xmRead := ⟨rfl, fun _ => rfl, rfl⟩
  xmWrite := ⟨rfl, fun _ => rfl, rfl⟩
  mwRead := ⟨fun _ => rfl, rfl⟩
  mwWrite := ⟨fun _ => rfl, rfl⟩

/-- Settles O58: the capacities of `State.reset` are the largest R5 allows. -/
theorem resetMeetsInvariant : Obligations.ResetMeetsInvariant :=
  have hpos : 0 < Config.maxWords := Nat.two_pow_pos 30
  resetWith_inv (c := ⟨imemWords, dmemWords⟩) hpos le_rfl hpos le_rfl 0

/-- The state at power-on and the one the reset input leaves have one form. -/
theorem eq_resetWith_of_reset {s : State} (h : s = State.reset ∨ ∃ t, s = resetMachine t) :
    ∃ c n, s = { State.resetWith c with freeCount := n } := by
  rcases h with rfl | ⟨t, rfl⟩
  · exact ⟨⟨imemWords, dmemWords⟩, 0, rfl⟩
  · exact ⟨t.capacities, t.freeCount, rfl⟩

/-- A register file of zeros reads zero. -/
theorem RegFile.read_replicate_zero (r : RegIdx) : RegFile.read (Vector.replicate 32 0#32) r = 0#32 := by
  unfold RegFile.read
  split
  · rfl
  · exact Vector.getElem_replicate _

/-- Settles O52: every field of the one form both resets have. -/
theorem resetState : Obligations.ResetState := by
  intro s h
  obtain ⟨c, n, rfl⟩ := eq_resetWith_of_reset h
  refine ⟨RegFile.read_replicate_zero, rfl, rfl, rfl, Memory.cell_blank, Memory.cell_blank, rfl, ?_, ?_, ?_⟩
  · rintro d (rfl | rfl) <;> rfl
  · rintro m (rfl | rfl) <;> rfl
  · rintro m (rfl | rfl) <;> rfl

/-! ### The host's register accessors -/

/-- The index a host's access names is the number it gives. -/
theorem hostIndex_eq_some {i : Int} {r : RegIdx} : hostIndex i = some r ↔ i = r.toNat := by
  have hlt := r.isLt
  unfold hostIndex
  split
  · simp only [Option.some.injEq, ← BitVec.toNat_inj, BitVec.toNat_ofInt]
    omega
  · simp only [reduceCtorEq, false_iff]
    omega

/-- No register has a number outside 0 to 31 (R23). -/
theorem hostIndex_eq_none {i : Int} : hostIndex i = none ↔ i < 0 ∨ 32 ≤ i := by
  simp only [hostIndex, ite_eq_right_iff, reduceCtorEq, imp_false]
  omega

theorem hostRegRead_of_some {i : Int} {r : RegIdx} (h : hostIndex i = some r) (s : State) :
    hostRegRead i s = .ok (s.reg r) := by simp [hostRegRead, h]

theorem hostRegRead_of_none {i : Int} (h : hostIndex i = none) (s : State) :
    hostRegRead i s = .error .invalidAddress := by simp [hostRegRead, h]

theorem hostRegWrite_of_some {i : Int} {r : RegIdx} (h : hostIndex i = some r) (v : Word) (s : State) :
    hostRegWrite i v s = .next { s with x := RegFile.write s.x r v } := by simp [hostRegWrite, h]

theorem hostRegWrite_of_none {i : Int} (h : hostIndex i = none) (v : Word) (s : State) :
    hostRegWrite i v s = .fault .invalidAddress := by simp [hostRegWrite, h]

/-- Settles O13: such an index names no register. -/
theorem hostIndexOutOfRangeFails : Obligations.HostIndexOutOfRangeFails := by
  intro s i v h
  have hnone := hostIndex_eq_none.mpr h
  exact ⟨hostRegRead_of_none hnone s, hostRegWrite_of_none hnone v s⟩

/-- The host's accessors on index 0 (R22). -/
theorem hostReg_zero (s : State) (v : Word) : hostRegRead 0 s = .ok 0#32 ∧ hostRegWrite 0 v s = .next s := by
  have h0 : hostIndex 0 = some 0#5 := hostIndex_eq_some.mpr rfl
  rw [hostRegRead_of_some h0, hostRegWrite_of_some h0, RegFile.write_zero]
  exact ⟨congrArg _ (RegFile.read_zero s.x), rfl⟩

/-- After the host's write of a register, every other index answers as before. -/
theorem hostRegRead_after_write_of_ne {i j : Int} {r : RegIdx} (hi : hostIndex i = some r) (hji : j ≠ i)
    (v : Word) (s : State) : hostRegRead j { s with x := RegFile.write s.x r v } = hostRegRead j s := by
  cases hj : hostIndex j with
  | none => rw [hostRegRead_of_none hj, hostRegRead_of_none hj]
  | some q =>
    have hqr : q ≠ r := by
      rintro rfl
      exact hji ((hostIndex_eq_some.mp hj).trans (hostIndex_eq_some.mp hi).symm)
    rw [hostRegRead_of_some hj, hostRegRead_of_some hj]
    exact congrArg _ (RegFile.read_write_of_ne s.x v hqr)

/-- The host's accessors on the registers 1 to 31 (R22, R222). -/
theorem hostRegWrite_holds (s : State) (i : Int) (v : Word) (hlo : 1 ≤ i) (hhi : i ≤ 31) :
    ∃ t, hostRegWrite i v s = .next t ∧ hostRegRead i t = .ok v ∧
      ∀ j, j ≠ i → hostRegRead j t = hostRegRead j s := by
  obtain ⟨r, hr⟩ : ∃ r, hostIndex i = some r :=
    Option.ne_none_iff_exists'.mp (by rw [Ne, hostIndex_eq_none]; omega)
  have hr0 : r ≠ 0#5 := by
    rintro rfl
    have hi0 : i = 0 := hostIndex_eq_some.mp hr
    omega
  refine ⟨_, hostRegWrite_of_some hr v s, ?_, fun j hj => hostRegRead_after_write_of_ne hr hj v s⟩
  rw [hostRegRead_of_some hr]
  simp [Hardware.reg, hr0]

/-- Settles O12: the host's accessors by index, and Write-Back by the register file's rule for index 0. -/
theorem registerZeroHardWired : Obligations.RegisterZeroHardWired := by
  refine ⟨hostReg_zero, hostRegWrite_holds, fun s hworking _ hdest => ?_⟩
  refine ⟨cycle s, step_of_working hworking, ?_, RegFile.read_zero _⟩
  simp [hdest]

/-! ### The frame of a cycle and of a run -/

/-- A register after a working cycle: the one MW names holds what Write-Back wrote, any other what it held (R134). -/
theorem workingCycle_reg_frame {s : State} {r : RegIdx}
    (h : s.mw.w.ctrl.regWrite = false ∨ r ≠ s.mw.w.dest) (w : Word) : (workingCycle w s).reg r = s.reg r := by
  simp only [Hardware.reg, workingCycle_x]
  rcases h with hno | hne
  · simp [hno]
  · split
    · exact RegFile.read_write_of_ne s.x _ hne
    · rfl

/-- A cell the Memory stage does not store to (R135). -/
theorem workingCycle_cell_frame {s : State} {k : Nat} (hwf : s.dmem.wf s.capacities.dmemWords = true)
    (h : s.xm.w.ctrl.memWrite = false ∨ Memory.inRange s.capacities.dmemWords s.xm.w.aluResult = false ∨
      k ≠ cellIndex s.xm.w.aluResult) (w : Word) : (workingCycle w s).dmem.cell k = s.dmem.cell k := by
  rw [workingCycle_dmem]
  split
  case isTrue hstore =>
    rw [Memory.cell_store hwf, if_neg]
    rintro ⟨hin, hk⟩
    simp [hstore, hin, hk] at h
  case isFalse => rfl

/-- R108: a selector that computes nothing retains the result. -/
theorem alu_retains {op : BitVec 4} (h0 : op ≠ 0#4) (h1 : op ≠ 1#4) (h2 : op ≠ 2#4) (h6 : op ≠ 6#4)
    (a b held : Word) : alu op a b held = held := by
  simp [alu, h0, h1, h2, h6]

/-- Settles O32: `exec` is a working cycle, and each clause is the frame of the one stage that writes there. -/
theorem cycleFrame : Obligations.CycleFrame := by
  intro i s t hwf hexec
  rw [exec_eq_workingCycle] at hexec
  cases hexec
  refine ⟨fun r h => workingCycle_reg_frame h _, fun k h => workingCycle_cell_frame hwf h _, ?_, fun h => ?_,
    rfl, rfl, rfl⟩
  · rintro op rfl h0 h1 h2 h6
    exact alu_retains h0 h1 h2 h6 _ _ _
  · simp [h]

/-- Settles O31: `exec` is a working cycle, and the word fetched enters it in the Fetch stage alone. -/
theorem everyInstructionIsFetched : Obligations.EveryInstructionIsFetched := fun i j s =>
  ⟨workingCycle (encode i) s, workingCycle (encode j) s, exec_eq_workingCycle i s, exec_eq_workingCycle j s,
    rfl, rfl, rfl⟩

/-- A step changes neither the instruction memory nor MAX_PC (R26, R36). -/
theorem step_imem_maxPc {s t : State} (h : step s = .next t) : t.imem = s.imem ∧ t.maxPc = s.maxPc := by
  rcases step_next h with ⟨_, rfl⟩ | ⟨_, rfl⟩
  · exact ⟨rfl, rfl⟩
  · exact ⟨cycle_imem s, cycle_maxPc s⟩

/-- No number of calls changes the instruction memory or MAX_PC. -/
theorem run_imem_maxPc {n : Nat} {s t : State} (h : Sys2Proof.core.run n s = .next t) :
    t.imem = s.imem ∧ t.maxPc = s.maxPc :=
  run_preserves (P := fun u => u.imem = s.imem ∧ u.maxPc = s.maxPc)
    (fun _ _ hstep ⟨hi, hm⟩ =>
      have ⟨hi', hm'⟩ := step_imem_maxPc hstep
      ⟨hi'.trans hi, hm'.trans hm⟩)
    h ⟨rfl, rfl⟩

/-- Settles O33: what each call keeps, carried through the run. -/
theorem instructionMemoryIsConstant : Obligations.InstructionMemoryIsConstant := by
  intro s t n h
  obtain ⟨himem, hmax⟩ := run_imem_maxPc h
  exact ⟨himem, hmax, run_capacities h⟩

end Sys2Proof.Machine
end

section
/-! Obligations about the memories: the two low address bits (O14), what a store and a load do (O15, O16), and where a
working call fetches (O23). -/

namespace Sys2Proof.Machine

namespace Memory

/-! ### In range (R53) -/

theorem inRange_iff {words : Nat} {addr : Word} : inRange words addr = true ↔ addr.toNat / 4 < words := by
  simp only [inRange, decide_eq_true_eq, cellIndex_eq]

theorem inRange_eq_false_iff {words : Nat} {addr : Word} :
    inRange words addr = false ↔ words ≤ addr.toNat / 4 := by
  rw [← Bool.not_eq_true, inRange_iff, Nat.not_lt]

/-! ### A load (R54) -/

theorem load_of_inRange {words : Nat} {addr : Word} (h : inRange words addr = true) (m : Memory) (n : Nat) :
    m.load words addr n = m.cell (cellIndex addr) := by simp [load, h, wordAt]

theorem load_of_not_inRange {words : Nat} {addr : Word} (h : inRange words addr = false) (m : Memory) (n : Nat) :
    m.load words addr n = Config.freeWord n := by simp [load, h]

theorem loadCount_of_inRange {words : Nat} {addr : Word} (h : inRange words addr = true) (n : Nat) :
    loadCount words addr n = n := by simp [loadCount, h]

theorem loadCount_of_not_inRange {words : Nat} {addr : Word} (h : inRange words addr = false) (n : Nat) :
    loadCount words addr n = n + 1 := by simp [loadCount, h]

/-! ### An access depends on its address through the cell index alone (R51) -/

section
variable {a b : Word} (h : cellIndex a = cellIndex b)
include h

theorem inRange_congr (words : Nat) : inRange words a = inRange words b := by simp only [inRange, h]

theorem load_congr (m : Memory) (words n : Nat) : m.load words a n = m.load words b n := by
  simp only [load, wordAt, inRange_congr h, h]

theorem loadCount_congr (words n : Nat) : loadCount words a n = loadCount words b n := by
  simp only [loadCount, inRange_congr h]

theorem store_congr (m : Memory) (words : Nat) (v : Word) : m.store words a v = m.store words b v := by
  simp only [store, inRange_congr h, h]

end

end Memory

/-! ### The host's memory accessors depend on the address through the cell index alone (R223) -/

section
variable {a b : Word} (h : cellIndex a = cellIndex b)
include h

theorem hostDataRead_congr (s : State) : hostDataRead a s = hostDataRead b s := by
  simp only [hostDataRead, Memory.load_congr h, Memory.loadCount_congr h]

theorem hostDataWrite_congr (v : Word) (s : State) : hostDataWrite a v s = hostDataWrite b v s := by
  simp only [hostDataWrite, Memory.store_congr h]

theorem hostInstrRead_congr (s : State) : hostInstrRead a s = hostInstrRead b s := by
  simp only [hostInstrRead, Memory.load_congr h, Memory.loadCount_congr h]

theorem hostInstrWrite_congr (v : Word) (s : State) : hostInstrWrite a v s = hostInstrWrite b v s := by
  simp only [hostInstrWrite, Memory.inRange_congr h, Memory.store_congr h]

end

/-! ### The obligations about accesses -/

/-- The cell index keeps the upper 30 bits of the address, which the mask leaves alone (R51, R52). -/
theorem cellIndex_clearLowBits (addr : Word) : cellIndex (addr &&& 0xFFFFFFFC#32) = cellIndex addr := by
  have hlt : cellIndex addr < 2 ^ 30 := by
    have := addr.isLt
    rw [Memory.cellIndex_eq]
    omega
  have hmask : (0xFFFFFFFC#32 >>> 2).toNat = 2 ^ 30 - 1 := by decide
  calc cellIndex (addr &&& 0xFFFFFFFC#32)
      = cellIndex addr &&& (0xFFFFFFFC#32 >>> 2).toNat := by
        rw [cellIndex, BitVec.ushiftRight_and_distrib, BitVec.toNat_and, ← cellIndex]
    _ = cellIndex addr % 2 ^ 30 := by rw [hmask, Nat.and_two_pow_sub_one_eq_mod]
    _ = cellIndex addr := Nat.mod_eq_of_lt hlt

/-- Settles O14: both addresses select one cell, and an access depends on its address through that cell alone. -/
theorem lowAddressBitsIgnored : Obligations.LowAddressBitsIgnored := by
  intro m words s addr v n
  have h := (cellIndex_clearLowBits addr).symm
  exact ⟨Memory.load_congr h m words n, Memory.store_congr h m words v, hostDataRead_congr h s,
    hostDataWrite_congr h v s, hostInstrRead_congr h s, hostInstrWrite_congr h v s⟩

/-- Settles O15: the rule for reading any cell after a store, with the range test decided. -/
theorem storeReplacesOneCell : Obligations.StoreReplacesOneCell := by
  intro m words addr v hwf
  refine ⟨fun hin k => ?_, fun hout => ?_⟩
  · rw [Memory.cell_store hwf]
    simp only [Memory.inRange_iff, Memory.cellIndex_eq, hin, true_and]
  · exact Memory.store_of_not_inRange v (Memory.inRange_eq_false_iff.mpr hout)

/-- Settles O16: the load and the count of free words on either side of the range test. -/
theorem loadDeliversCell : Obligations.LoadDeliversCell := by
  intro m words addr n
  refine ⟨fun hin => ?_, fun hout => ?_, Memory.cell_blank _⟩
  · have h := Memory.inRange_iff.mpr hin
    rw [← Memory.cellIndex_eq]
    exact ⟨Memory.load_of_inRange h m n, Memory.loadCount_of_inRange h n⟩
  · have h := Memory.inRange_eq_false_iff.mpr hout
    exact ⟨Memory.load_of_not_inRange h m n, Memory.loadCount_of_not_inRange h n⟩

/-! ### The guard and the launch premise, and the fetch between them -/

/-- R131's guard, in numbers. -/
theorem running_iff {s : State} : s.running = true ↔ s.maxPc ≠ 0#32 ∧ s.pc.toNat ≤ s.maxPc.toNat := by
  simp only [State.running, Bool.and_eq_true, decide_eq_true_eq, BitVec.le_def]

/-- R228's launch premise, in numbers. -/
theorem launchable_iff {s : State} : s.launchable = true ↔ s.maxPc.toNat < 4 * s.capacities.imemWords := by
  simp only [State.launchable, decide_eq_true_eq]

/-- Settles O23: the guard bounds `pc` by MAX_PC, the launch premise MAX_PC by the end of the instruction memory. -/
theorem fetchStaysInRange : Obligations.FetchStaysInRange := by
  rintro s ⟨hrun, hlaunch⟩
  have ⟨_, hpc⟩ := running_iff.mp hrun
  have hmax := launchable_iff.mp hlaunch
  have hin : s.pc.toNat / 4 < s.capacities.imemWords := by omega
  exact ⟨hin, Memory.inRange_iff.mpr hin⟩

end Sys2Proof.Machine
end

section
/-! The instruction word: its fields as arithmetic on the word, the decoder row by row, and the obligations about the
encoding (O3, O4, O5, O6). -/

namespace Sys2Proof

/-! ### The fields as arithmetic on the word (R71, R77) -/

section
variable (w : Word)

/-- A slice of a word is the word's number divided by the weight of its lowest bit, cut to the slice's width. -/
theorem extractLsb'_eq_ofNat_div (start len : Nat) :
    w.extractLsb' start len = BitVec.ofNat len (w.toNat / 2 ^ start) := by
  rw [BitVec.extractLsb', Nat.shiftRight_eq_div_pow]

theorem opCodeOf_eq_ofNat : opCodeOf w = BitVec.ofNat 6 (w.toNat / 2 ^ 26) := extractLsb'_eq_ofNat_div w 26 6
theorem rsOf_eq_ofNat : rsOf w = BitVec.ofNat 5 (w.toNat / 2 ^ 21) := extractLsb'_eq_ofNat_div w 21 5
theorem rtOf_eq_ofNat : rtOf w = BitVec.ofNat 5 (w.toNat / 2 ^ 16) := extractLsb'_eq_ofNat_div w 16 5
theorem rdOf_eq_ofNat : rdOf w = BitVec.ofNat 5 (w.toNat / 2 ^ 11) := extractLsb'_eq_ofNat_div w 11 5
theorem shamtOf_eq_ofNat : shamtOf w = BitVec.ofNat 5 (w.toNat / 2 ^ 6) := extractLsb'_eq_ofNat_div w 6 5
theorem functOf_eq_ofNat : functOf w = BitVec.ofNat 6 w.toNat := rfl
theorem offsetOf_eq_ofNat : offsetOf w = BitVec.ofNat 16 w.toNat := rfl
theorem targetOf_eq_ofNat : targetOf w = BitVec.ofNat 26 w.toNat := rfl

/-- OpCode holds the topmost bits, so nothing is cut off above it. -/
theorem toNat_opCodeOf : (opCodeOf w).toNat = w.toNat / 2 ^ 26 := by
  have hw := w.isLt
  rw [opCodeOf_eq_ofNat, BitVec.toNat_ofNat]
  omega

theorem toNat_functOf : (functOf w).toNat = w.toNat % 2 ^ 6 := by rw [functOf_eq_ofNat, BitVec.toNat_ofNat]

end

/-! ### The conditions of well-formedness, as equations of fields (R78) -/

theorem namedFunct_eq_false_iff {funct : BitVec 6} : namedFunct funct = false ↔
    funct ≠ 0x20#6 ∧ funct ≠ 0x22#6 ∧ funct ≠ 0x24#6 ∧ funct ≠ 0x25#6 ∧ funct ≠ 0x2A#6 := by
  simp [namedFunct, and_assoc]

theorem namedOpCode_eq_false_iff {opcode : BitVec 6} : namedOpCode opcode = false ↔
    opcode ≠ 0#6 ∧ opcode ≠ 35#6 ∧ opcode ≠ 43#6 ∧ opcode ≠ 4#6 := by
  simp [namedOpCode, and_assoc]

/-- A word with OpCode 0 is the zero word exactly when its other fields are zero. -/
theorem packR_eq_zero_iff {rd rs rt : RegIdx} {shamt : BitVec 5} {funct : BitVec 6} :
    packR 0#6 rs rt rd shamt funct = 0#32 ↔ rd = 0#5 ∧ rs = 0#5 ∧ rt = 0#5 ∧ shamt = 0#5 ∧ funct = 0#6 := by
  refine ⟨fun hzero => not_not.mp fun hne => Laws.ControlRow.packR_ne_zero hne hzero, ?_⟩
  rintro ⟨rfl, rfl, rfl, rfl, rfl⟩
  rfl

/-- Row 7 holds the words that rows 1 to 6 do not take. -/
theorem wf_rtypeOther_iff {rd rs rt : RegIdx} {shamt : BitVec 5} {funct : BitVec 6} :
    (Instr.rtypeOther rd rs rt shamt funct).wf = true ↔
      namedFunct funct = false ∧ packR 0#6 rs rt rd shamt funct ≠ 0#32 := by
  simp only [Instr.wf, packR_eq_zero_iff, ne_eq, Bool.and_eq_true, Bool.not_eq_true', ← Bool.not_eq_true,
    beq_iff_eq, and_assoc]

/-! ### The decoder, row by row (R78) -/

section
variable {w : Word}

/-- The words with OpCode 0 are told apart by FUNCT, once the zero word is set aside. -/
theorem decode_eq_decodeRType (hop : opCodeOf w = 0#6) (hw : w ≠ 0#32) : decode w = decodeRType w := by
  rw [decode, if_neg hw, if_pos hop]

/-- A word whose FUNCT is not 0 is not the zero word. -/
theorem decode_of_functOf_ne_zero (hop : opCodeOf w = 0#6) (hf : functOf w ≠ 0#6) : decode w = decodeRType w :=
  decode_eq_decodeRType hop fun hw => hf (hw ▸ functOf_zero)

theorem decode_zero : decode 0#32 = .nop := rfl

theorem decode_add (hop : opCodeOf w = 0#6) (hf : functOf w = 0x20#6) :
    decode w = .add (rdOf w) (rsOf w) (rtOf w) (shamtOf w) := by
  simp [decode_of_functOf_ne_zero hop, decodeRType, hf]

theorem decode_sub (hop : opCodeOf w = 0#6) (hf : functOf w = 0x22#6) :
    decode w = .sub (rdOf w) (rsOf w) (rtOf w) (shamtOf w) := by
  simp [decode_of_functOf_ne_zero hop, decodeRType, hf]

theorem decode_and (hop : opCodeOf w = 0#6) (hf : functOf w = 0x24#6) :
    decode w = .and (rdOf w) (rsOf w) (rtOf w) (shamtOf w) := by
  simp [decode_of_functOf_ne_zero hop, decodeRType, hf]

theorem decode_or (hop : opCodeOf w = 0#6) (hf : functOf w = 0x25#6) :
    decode w = .or (rdOf w) (rsOf w) (rtOf w) (shamtOf w) := by
  simp [decode_of_functOf_ne_zero hop, decodeRType, hf]

theorem decode_slt (hop : opCodeOf w = 0#6) (hf : functOf w = 0x2A#6) :
    decode w = .slt (rdOf w) (rsOf w) (rtOf w) (shamtOf w) := by
  simp [decode_of_functOf_ne_zero hop, decodeRType, hf]

theorem decode_rtypeOther (hop : opCodeOf w = 0#6) (hw : w ≠ 0#32) (hf : namedFunct (functOf w) = false) :
    decode w = .rtypeOther (rdOf w) (rsOf w) (rtOf w) (shamtOf w) (functOf w) := by
  obtain ⟨hadd, hsub, hand, hor, hslt⟩ := namedFunct_eq_false_iff.mp hf
  rw [decode_eq_decodeRType hop hw, decodeRType, if_neg hadd, if_neg hsub, if_neg hand, if_neg hor, if_neg hslt]

/-- The words with an OpCode other than 0 are told apart by OpCode; the zero word is none of them. -/
theorem decode_of_opCodeOf_ne_zero (hop : opCodeOf w ≠ 0#6) :
    decode w =
      if opCodeOf w = 35#6 then .lw (rtOf w) (offsetOf w) (rsOf w)
      else if opCodeOf w = 43#6 then .sw (rtOf w) (offsetOf w) (rsOf w)
      else if opCodeOf w = 4#6 then .beq (rsOf w) (rtOf w) (offsetOf w)
      else .unknown (opCodeOf w) (targetOf w) := by
  rw [decode, if_neg (Laws.ControlRow.word_ne_zero hop), if_neg hop]

theorem decode_lw (hop : opCodeOf w = 35#6) : decode w = .lw (rtOf w) (offsetOf w) (rsOf w) := by
  simp [decode_of_opCodeOf_ne_zero, hop]

theorem decode_sw (hop : opCodeOf w = 43#6) : decode w = .sw (rtOf w) (offsetOf w) (rsOf w) := by
  simp [decode_of_opCodeOf_ne_zero, hop]

theorem decode_beq (hop : opCodeOf w = 4#6) : decode w = .beq (rsOf w) (rtOf w) (offsetOf w) := by
  simp [decode_of_opCodeOf_ne_zero, hop]

theorem decode_unknown (hop : namedOpCode (opCodeOf w) = false) :
    decode w = .unknown (opCodeOf w) (targetOf w) := by
  obtain ⟨h0, hlw, hsw, hbeq⟩ := namedOpCode_eq_false_iff.mp hop
  rw [decode_of_opCodeOf_ne_zero h0, if_neg hlw, if_neg hsw, if_neg hbeq]

end

/-! ### Decoding and encoding undo each other -/

/-- Settles O3: the word of an instruction carries the OpCode and FUNCT of the instruction's row, so that row's rule
decodes it, and the packed fields read back. Well-formedness is what rows 7 and 11 need. -/
theorem decodeEncodeAgree : Obligations.DecodeEncodeAgree := by
  intro i hwf
  cases i with
  | nop => exact decode_zero
  | add rd rs rt shamt => rw [encode, decode_add (by simp) (by simp)]; simp
  | sub rd rs rt shamt => rw [encode, decode_sub (by simp) (by simp)]; simp
  | and rd rs rt shamt => rw [encode, decode_and (by simp) (by simp)]; simp
  | or rd rs rt shamt => rw [encode, decode_or (by simp) (by simp)]; simp
  | slt rd rs rt shamt => rw [encode, decode_slt (by simp) (by simp)]; simp
  | rtypeOther rd rs rt shamt funct =>
    obtain ⟨hfunct, hword⟩ := wf_rtypeOther_iff.mp hwf
    rw [encode, decode_rtypeOther (by simp) hword (by simpa using hfunct)]
    simp
  | lw rt offset rs => rw [encode, decode_lw (by simp)]; simp
  | sw rt offset rs => rw [encode, decode_sw (by simp)]; simp
  | beq rs rt offset => rw [encode, decode_beq (by simp)]; simp
  | unknown opcode rest =>
    have hop : namedOpCode opcode = false := by simpa [Instr.wf] using hwf
    rw [encode, decode_unknown (by simpa using hop)]
    simp

/-- What rows 1 to 6 leave over among the words with OpCode 0 is well formed as row 7. -/
theorem decodeRType_wf {w : Word} (hop : opCodeOf w = 0#6) (hw : w ≠ 0#32) : (decodeRType w).wf = true := by
  have hfields := packR_fields w
  rw [hop] at hfields
  unfold decodeRType
  split_ifs with hadd hsub hand hor hslt
  · rfl
  · rfl
  · rfl
  · rfl
  · rfl
  · exact wf_rtypeOther_iff.mpr
      ⟨namedFunct_eq_false_iff.mpr ⟨hadd, hsub, hand, hor, hslt⟩, hfields.symm ▸ hw⟩

/-- Every word decodes to a well-formed instruction (R73). -/
theorem decode_wf (w : Word) : (decode w).wf = true := by
  unfold decode
  split_ifs with hw h0 hlw hsw hbeq
  · rfl
  · exact decodeRType_wf h0 hw
  · rfl
  · rfl
  · rfl
  · simp [Instr.wf, namedOpCode_eq_false_iff.mpr ⟨h0, hlw, hsw, hbeq⟩]

/-- Settles O4: the word is the instruction's encoding, and a word is the encoding of what it decodes to. -/
theorem wordsAndInstructionsCorrespond : Obligations.WordsAndInstructionsCorrespond := by
  refine ⟨decode_wf, fun i hwf => ⟨encode i, decodeEncodeAgree i hwf, ?_⟩⟩
  rintro v rfl
  exact (encode_decode v).symm

/-! ### The encoders' arguments read back (R75 to R77) -/

/-- The low 16 bits of a signed offset that 16 bits can hold extend to the offset (R8, R74). -/
theorem toInt_sext32_ofInt {offset : Int} (hlo : -32768 ≤ offset) (hhi : offset ≤ 32767) :
    (sext32 (BitVec.ofInt 16 offset)).toInt = offset := by
  rw [sext32, BitVec.toInt_signExtend_of_le (by decide), BitVec.toInt_ofInt]
  exact Int.bmod_eq_of_le (by omega) (by omega)

/-- Settles O5: each slice as its division and remainder; the encoders pack fields that read back. -/
theorem encoderFieldsReadBack : Obligations.EncoderFieldsReadBack := by
  refine ⟨fun w => ?_, fun op rs rt rd shamt funct hop hrs hrt hrd hshamt hfunct => ?_,
    fun op rs rt offset hop hrs hrt hlo hhi => ?_⟩
  · refine ⟨toNat_opCodeOf w, ?_, ?_, ?_, ?_, toNat_functOf w, ?_, ?_⟩
    · rw [rsOf_eq_ofNat, BitVec.toNat_ofNat]
    · rw [rtOf_eq_ofNat, BitVec.toNat_ofNat]
    · rw [rdOf_eq_ofNat, BitVec.toNat_ofNat]
    · rw [shamtOf_eq_ofNat, BitVec.toNat_ofNat]
    · rw [offsetOf_eq_ofNat, BitVec.toNat_ofNat]
    · rw [targetOf_eq_ofNat, BitVec.toNat_ofNat]
  · simp [encodeRType, Nat.mod_eq_of_lt, hop, hrs, hrt, hrd, hshamt, hfunct]
  · simp [encodeIType, Nat.mod_eq_of_lt, hop, hrs, hrt, toInt_sext32_ofInt hlo hhi]

/-! ### The opcode map on numeric slices -/

/-- Settles O6: the numeric slices are the fields, and each row is the decoder's rule for it. -/
theorem opcodeMapRows : Obligations.OpcodeMapRows := by
  intro w
  simp only [← toNat_opCodeOf, ← toNat_functOf, ← rsOf_eq_ofNat, ← rtOf_eq_ofNat, ← rdOf_eq_ofNat,
    ← shamtOf_eq_ofNat, ← offsetOf_eq_ofNat, ← targetOf_eq_ofNat]
  simp only [BitVec.ofNat_toNat, BitVec.setWidth_eq, BitVec.toNat_eq_nat, Nat.reducePow, Nat.reduceLT, true_and,
    ne_eq]
  exact ⟨fun h => h ▸ decode_zero, decode_add, decode_sub, decode_and, decode_or, decode_slt,
    fun h0 hw hadd hsub hand hor hslt =>
      decode_rtypeOther h0 hw (namedFunct_eq_false_iff.mpr ⟨hadd, hsub, hand, hor, hslt⟩),
    decode_lw, decode_sw, decode_beq,
    fun h0 hlw hsw hbeq => decode_unknown (namedOpCode_eq_false_iff.mpr ⟨h0, hlw, hsw, hbeq⟩)⟩

end Sys2Proof
end

section
/-! The decoders and the arithmetic unit: the selector for each ALUOp pair, what each ALU selector leaves in the result,
and the obligations about them (O7, O9, O10, O11). -/

namespace Sys2Proof.Machine

/-! ### The control-vector decoder (R100) -/

/-- Settles O7: each word falls under one of the decoder's cases; the conditions of the rows above its own fail, the zero
word's among them, as its OpCode is 0. -/
theorem controlVectorTable : Obligations.ControlVectorTable := by
  intro w
  change controlDecode w = if w = 0#32 then Control.noOp
    else if opCodeOf w = 0#6 then Control.rType
    else if opCodeOf w = 35#6 then Control.lw
    else if opCodeOf w = 43#6 then Control.sw
    else if opCodeOf w = 4#6 then Control.beq
    else Control.noOp
  have hzero : opCodeOf w ≠ 0#6 → w ≠ 0#32 := Laws.ControlRow.word_ne_zero
  rcases controlDecode_cases w with
    ⟨hw, h⟩ | ⟨hw, hop, h⟩ | ⟨hop, h⟩ | ⟨hop, h⟩ | ⟨hop, h⟩ | ⟨h0, h35, h43, h4, h⟩
  · rw [h, if_pos hw]
  · rw [h, if_neg hw, if_pos hop]
  · simp [h, hop, hzero]
  · simp [h, hop, hzero]
  · simp [h, hop, hzero]
  · rw [h, if_neg (hzero h0), if_neg h0, if_neg h35, if_neg h43, if_neg h4]

/-! ### The ALU-control decoder (R104) -/

/-- Loads and stores add, whatever the low bits of the offset. -/
@[simp] theorem aluControl_memory (funct : BitVec 6) : aluControl false false funct = 2#4 := rfl

/-- A branch subtracts, whatever the low bits of the offset. -/
@[simp] theorem aluControl_branch (funct : BitVec 6) : aluControl false true funct = 6#4 := rfl

/-- The no-op pair gets the selector that retains. -/
@[simp] theorem aluControl_noOp (funct : BitVec 6) : aluControl true true funct = 8#4 := rfl

/-- Only the R-type pair looks at the function code; a code without a name gets AND's selector. -/
theorem aluControl_unnamed {funct : BitVec 6} (h : namedFunct funct = false) :
    aluControl true false funct = 0#4 := by
  obtain ⟨hadd, hsub, hand, hor, hslt⟩ := namedFunct_eq_false_iff.mp h
  simp [aluControl, aluKey, hadd, hsub, hand, hor, hslt]

/-- Settles O9: three of the four pairs fix the selector, the R-type pair looks it up by function code. -/
theorem aluControlTable : Obligations.AluControlTable := fun funct =>
  ⟨aluControl_memory funct, aluControl_branch funct, rfl, rfl, rfl, rfl, rfl,
    fun hadd hsub hand hor hslt =>
      aluControl_unnamed (namedFunct_eq_false_iff.mpr ⟨hadd, hsub, hand, hor, hslt⟩),
    aluControl_noOp funct⟩

/-! ### The arithmetic unit (R107 to R109) -/

section
variable (a b held : Word)

@[simp] theorem alu_and : alu 0#4 a b held = a &&& b := rfl
@[simp] theorem alu_or : alu 1#4 a b held = a ||| b := rfl
@[simp] theorem alu_add : alu 2#4 a b held = a + b := rfl
@[simp] theorem alu_sub : alu 6#4 a b held = a - b := rfl

/-- The difference of two words as integer arithmetic modulo 2^32. -/
theorem toNat_sub_eq_emod : ((a - b).toNat : Int) = ((a.toNat : Int) - b.toNat) % 2 ^ 32 := by
  rw [BitVec.toNat_sub]
  omega

end

theorem zeroFlag_iff {result : Word} : zeroFlag result = true ↔ result = 0#32 := beq_iff_eq

/-- Settles O10: the four selectors are the bit-vector operations, of which the library says what they do bit by bit or
modulo 2^32; the examples do not depend on the held result. -/
theorem aluComputes : Obligations.AluComputes := by
  refine ⟨fun a b held => ?_, fun held => ?_⟩
  · simp only [alu_and, alu_or, alu_add, alu_sub]
    exact ⟨fun _ => BitVec.getLsbD_and, fun _ => BitVec.getLsbD_or, BitVec.toNat_add a b, toNat_sub_eq_emod a b⟩
  · simp only [alu_and, alu_or, alu_add, alu_sub]
    decide

/-- Settles O11: no computing selector applies, so Zero is evaluated on the held result. -/
theorem aluRetainsOnOtherSelectors : Obligations.AluRetainsOnOtherSelectors := by
  intro op a b held h0 h1 h2 h6
  rw [alu_retains h0 h1 h2 h6]
  exact ⟨rfl, zeroFlag_iff⟩

end Sys2Proof.Machine
end

section
/-! One call of `Step()`: stopped calls and the answers of calls (O19, O20, O21), the instruction a working call runs (O1),
and what the seven sub-steps leave in the state after a working call (O24 to O30). -/

namespace Sys2Proof.Machine

/-! ### The answer of a call (R131, R139) -/

theorem answer_of_not_running {s : State} (h : s.running = false) (t : State) : answer s t = .halt := by
  simp [answer, h]

theorem answer_of_running {s : State} (h : s.running = true) (t : State) :
    answer s t = if t.pc.toNat ≤ t.maxPc.toNat then .cont else .halt := by
  simp only [answer, h, if_true, BitVec.le_def]

/-- A call that answers a next state answers its signal beside it. -/
theorem stepAnswer_of_next {s t : State} (h : step s = .next t) : stepAnswer s = .next (t, answer s t) := by
  simp only [stepAnswer, h]

/-! ### Stopped calls (R131, R144, R145) -/

section
variable {s : State} (h : s.running = false)
include h

theorem stepAnswer_of_not_running : stepAnswer s = .next (s, .halt) := by
  rw [stepAnswer_of_next (step_of_not_running h), answer_of_not_running h]

/-- However often it is called, a stopped machine stays as it is. -/
theorem run_of_not_running (n : Nat) : Sys2Proof.core.run n s = .next s := by
  induction n with
  | zero => rfl
  | succ n ih => exact run_succ_eq_next.mpr ⟨s, step_of_not_running h, ih⟩

end

theorem not_running_of_maxPc_eq_zero {s : State} (h : s.maxPc = 0#32) : s.running = false := by
  rw [← Bool.not_eq_true, running_iff]
  exact fun ⟨hne, _⟩ => hne h

theorem not_running_of_maxPc_lt_pc {s : State} (h : s.maxPc.toNat < s.pc.toNat) : s.running = false := by
  rw [← Bool.not_eq_true, running_iff]
  exact fun ⟨_, hle⟩ => Nat.not_le_of_lt h hle

/-- Settles O19: MAX_PC = 0 fails the guard, and a stopped call changes nothing. -/
theorem unloadedMachineNeverRuns : Obligations.UnloadedMachineNeverRuns := by
  intro s n h
  have hstop := not_running_of_maxPc_eq_zero h
  exact ⟨stepAnswer_of_not_running hstop, run_of_not_running hstop n⟩

/-- Settles O20: a `pc` past MAX_PC fails the guard, and a stopped call changes nothing. -/
theorem haltedMachineStays : Obligations.HaltedMachineStays := by
  intro s n h
  have hstop := not_running_of_maxPc_lt_pc h
  exact ⟨stepAnswer_of_not_running hstop, run_of_not_running hstop n⟩

/-! ### Working calls -/

/-- Settles O1: `exec i` is the cycle that fetches the word of `i`, which is the word at `pc`. -/
theorem stepRunsDecodedInstruction : Obligations.StepRunsDecodedInstruction := by
  rintro s _ hwork rfl
  refine ⟨?_, cycle s, step_of_working hwork, by rw [cycle_fd]⟩
  rw [step_of_working hwork, exec_eq_workingCycle, encode_decode, cycle_eq]

/-- Settles O21: a call that passed the guard answers by the `pc` it leaves, against a MAX_PC that no cycle changes. -/
theorem workingCallAnswersByNewPc : Obligations.WorkingCallAnswersByNewPc := by
  intro s hwork
  have ⟨hrun, _⟩ := hwork
  have hstep := step_of_working hwork
  refine ⟨cycle s, hstep, ?_⟩
  rw [stepAnswer_of_next hstep, answer_of_running hrun, cycle_maxPc]

/-- Settles O24: Flush is `Buffer.flush` of each buffer, and no later sub-step writes a read slot. -/
theorem flushPromotesWriteSlots : Obligations.FlushPromotesWriteSlots := by
  refine fun s => ⟨rfl, rfl, rfl, rfl, fun hwork => ⟨cycle s, step_of_working hwork, ?_⟩⟩
  rw [cycle_fd, cycle_dx, cycle_xm, cycle_mw]
  exact ⟨rfl, rfl, rfl, rfl⟩

/-- Settles O25: no later sub-step overwrites what the forward-pass copied. -/
theorem forwardPassCarriesFields : Obligations.ForwardPassCarriesFields := by
  refine fun s hwork => ⟨cycle s, step_of_working hwork, ?_⟩
  rw [cycle_dx, cycle_xm, cycle_mw]
  exact ⟨rfl, rfl, rfl, rfl, rfl, rfl, rfl⟩

/-! ### Write-Back and Decode (R134, R137) -/

/-- A read after a write: the written value, except at index 0, where the write is dropped (R22). -/
theorem RegFile.read_write_eq_ite (x : RegFile) (i j : RegIdx) (v : Word) :
    RegFile.read (RegFile.write x i v) j = if j = i ∧ j ≠ 0#5 then v else RegFile.read x j := by
  rw [RegFile.read_write]
  by_cases hji : j = i
  · subst hji
    by_cases hj : j = 0#5 <;> simp [hj]
  · simp [hji]

/-- A register after a cycle whose Write-Back writes. -/
theorem cycle_reg_of_regWrite {s : State} (h : s.mw.w.ctrl.regWrite = true) (r : RegIdx) :
    (cycle s).reg r = if r = s.mw.w.dest ∧ r ≠ 0#5 then writeBackValue s.mw.w else s.reg r := by
  rw [Hardware.reg, cycle_x, if_pos h, RegFile.read_write_eq_ite, ← Hardware.reg]

/-- Settles O26: the register file after the cycle is Write-Back's, and Decode reads from it. -/
theorem writeBackWritesOneRegister : Obligations.WriteBackWritesOneRegister := by
  refine fun s hwork => ⟨cycle s, step_of_working hwork, fun hno => ?_, cycle_reg_of_regWrite, ?_⟩
  · rw [cycle_x, hno, if_neg Bool.false_ne_true]
  · rw [cycle_dx]
    exact ⟨rfl, rfl⟩

/-- Settles O29: what `cycle` latches in DX's write slot, the fields written as slices of the word. -/
theorem decodeStageReads : Obligations.DecodeStageReads := by
  refine fun s hwork => ⟨cycle s, step_of_working hwork, ?_⟩
  rw [cycle_dx]
  exact ⟨rfl, rfl, rfl, rfl⟩

/-! ### Memory and Execute (R135, R136) -/

/-- Settles O27: MemRead decides the latched word and the count of free words, MemWrite the store. -/
theorem memoryStageAccesses : Obligations.MemoryStageAccesses := by
  refine fun s hwork => ⟨cycle s, step_of_working hwork, ?_⟩
  rw [cycle_mw, cycle_freeCount, cycle_dmem]
  refine ⟨fun hread => ?_, fun hread => ?_, fun hwrite => ?_, fun hwrite => ?_⟩
  · simp [hread]
  · simp [hread]
  · simp [hwrite]
  · simp [hwrite]

/-- Settles O28: what `cycle` latches in XM's write slot; `zero` is evaluated on the dispatched result. -/
theorem executeStageComputes : Obligations.ExecuteStageComputes := by
  refine fun s hwork => ⟨cycle s, step_of_working hwork, ?_⟩
  rw [cycle_xm, cycle_aluResult]
  exact ⟨rfl, rfl, rfl, zeroFlag_iff, rfl⟩

/-! ### Fetch (R138) -/

/-- The word fetched is the cell `addr[31:2]` (R51, R56). -/
theorem iMemRead_eq_cell (s : State) (addr : Word) : iMemRead s addr = s.imem.cell (addr.toNat / 4) := by
  rw [iMemRead, Memory.wordAt, Memory.cellIndex_eq]

theorem branchTaken_iff {m : XmSlot} : branchTaken m = true ↔ m.ctrl.branch = true ∧ m.zero = true := by
  rw [branchTaken, Bool.and_eq_true]

/-- Settles O30: FD takes the cell at `pc` whether or not the branch in XM is taken. -/
theorem fetchStageSteers : Obligations.FetchStageSteers := by
  refine fun s hwork => ⟨cycle s, step_of_working hwork, ?_⟩
  rw [cycle_fd, cycle_pc, iMemRead_eq_cell]
  simp only [branchTaken_iff, nextPc, and_self]

end Sys2Proof.Machine
end

section
/-! The R-type family (R170 to R176): the passage of an instruction with the R-type row, said once for its ALU selector,
and the obligations about each of its six rows (O34 to O39); the words the spec writes out (O2). -/

namespace Sys2Proof.Machine

open Laws

/-- Settles O2: eleven closed words, each run through the decoder. -/
theorem specWordsDecode : Obligations.SpecWordsDecode := by
  unfold Obligations.SpecWordsDecode
  decide

/-! ### The passage of an instruction with the R-type row (R170) -/

section
variable {rd rs rt : RegIdx} {shamt : BitVec 5} {funct : BitVec 6} {i : Instr}
  (henc : encode i = packR 0#6 rs rt rd shamt funct) (hwf : i.wf = true)
include henc hwf

/-- The word in the form R171 to R176 give it: the function code, then the fields shifted into place. -/
theorem decode_lor_of_encode :
    decode (funct.setWidth 32 ||| rs.setWidth 32 <<< 21 ||| rt.setWidth 32 <<< 16 ||| rd.setWidth 32 <<< 11 |||
      shamt.setWidth 32 <<< 6) = i := by
  rw [← packR_eq_lor, ← henc]
  exact decodeEncodeAgree i hwf

variable (hlaw : ControlRow.Statement i) (hrow : ControlRow.row i = Control.rType)
include hlaw hrow

/-- The dispatch is of the instruction's selector on the two registers: ALUSrc is 0, so operand B is `x[rt]` (R112). -/
theorem courseResult_of_rType (t : State) :
    courseResult (encode i) t = alu (ControlRow.selector i) (t.reg rs) (t.reg rt) t.aluResult := by
  obtain ⟨hctrl, hsel⟩ := hlaw hwf
  have hrs : rsOf (encode i) = rs := by rw [henc, rsOf_packR]
  have hrt : rtOf (encode i) = rt := by rw [henc, rtOf_packR]
  have hsrc : (ControlRow.row i).aluSrc = false := by rw [hrow]; rfl
  simp only [courseResult, hctrl, hsel, hrs, hrt, hsrc, Bool.false_eq_true, if_false]

/-- The five Steps of the instruction, whichever its selector: only the result depends on that. -/
theorem passage_of_rType {s : State} (h : StaysWorking i s) :
    ∃ s1 s2 s3 s4 s5, Passage i s s1 s2 s3 s4 s5 ∧
      RTypeCourse rd (alu (ControlRow.selector i) (s2.reg rs) (s2.reg rt) s2.aluResult) s2 s3 s4 s5 := by
  obtain ⟨s2, hpassage, -, hdx⟩ := passage_of_staysWorking h
  obtain ⟨hctrl, -⟩ := hlaw hwf
  have hrd : rdOf (encode i) = rd := by rw [henc, rdOf_packR]
  have hcourse := rType_course hdx (hctrl.trans hrow) hrd
  rw [courseResult_of_rType henc hwf hlaw hrow] at hcourse
  exact ⟨_, s2, _, _, _, hpassage, hcourse⟩

end

/-! ### The six rows: what the selector of each leaves in `alu_result` -/

/-- Selector 7 does not compare: it retains (R108, D15). -/
@[simp] theorem alu_slt (a b held : Word) : alu 7#4 a b held = held :=
  alu_retains (by decide) (by decide) (by decide) (by decide) a b held

/-- Settles O34: selector 2 adds. -/
theorem addCourse : Obligations.AddCourse := by
  intro rd rs rt shamt s h
  refine ⟨decode_lor_of_encode (funct := 0x20#6) rfl rfl, ?_⟩
  simpa only [ControlRow.selector, alu_add] using
    passage_of_rType rfl rfl (ControlRow.add rd rs rt shamt) rfl h

/-- Settles O35: selector 6 subtracts. -/
theorem subCourse : Obligations.SubCourse := by
  intro rd rs rt shamt s h
  refine ⟨decode_lor_of_encode (funct := 0x22#6) rfl rfl, ?_⟩
  simpa only [ControlRow.selector, alu_sub] using
    passage_of_rType rfl rfl (ControlRow.sub rd rs rt shamt) rfl h

/-- Settles O36: selector 0 is the bitwise AND. -/
theorem andCourse : Obligations.AndCourse := by
  intro rd rs rt shamt s h
  refine ⟨decode_lor_of_encode (funct := 0x24#6) rfl rfl, ?_⟩
  simpa only [ControlRow.selector, alu_and] using
    passage_of_rType rfl rfl (ControlRow.and rd rs rt shamt) rfl h

/-- Settles O37: selector 1 is the bitwise OR. -/
theorem orCourse : Obligations.OrCourse := by
  intro rd rs rt shamt s h
  refine ⟨decode_lor_of_encode (funct := 0x25#6) rfl rfl, ?_⟩
  simpa only [ControlRow.selector, alu_or] using
    passage_of_rType rfl rfl (ControlRow.or rd rs rt shamt) rfl h

/-- Settles O38: selector 7 retains, so both registers drop out of the result. -/
theorem sltSlotCourse : Obligations.SltSlotCourse := by
  intro rd rs rt shamt s h
  refine ⟨decode_lor_of_encode (funct := 0x2A#6) rfl rfl, ?_⟩
  simpa only [ControlRow.selector, alu_slt] using
    passage_of_rType rfl rfl (ControlRow.slt rd rs rt shamt) rfl h

/-- Settles O39: a function code without a name gets AND's selector, once well-formedness has set the named ones and the
zero word aside. -/
theorem rtypeOtherCourse : Obligations.RtypeOtherCourse := by
  intro rd rs rt shamt funct s hwf h
  simpa only [ControlRow.selector, alu_and] using
    passage_of_rType rfl hwf (ControlRow.rtypeOther rd rs rt shamt funct) rfl h

end Sys2Proof.Machine
end

section
/-! The load and store family (R190 to R192): the effective address as integer arithmetic (O17), the Steps a load and a
store share, and the passage of each (O40, O41). -/

namespace Sys2Proof.Machine

open Laws

/-! ### The effective address (R192) -/

/-- A sum of two words as integer arithmetic modulo 2^32, the second read as signed. -/
theorem toNat_add_eq_emod_toInt (a b : Word) : ((a + b).toNat : Int) = ((a.toNat : Int) + b.toInt) % 2 ^ 32 := by
  rw [BitVec.toNat_add, BitVec.toInt_eq_toNat_cond]
  split <;> omega

/-- Sign extension keeps the value (R8). -/
@[simp] theorem toInt_sext32 (offset : BitVec 16) : (sext32 offset).toInt = offset.toInt :=
  BitVec.toInt_signExtend_of_le (by decide)

/-- Settles O17: the sum of two words, the second of them the extended offset. -/
theorem effectiveAddressArithmetic : Obligations.EffectiveAddressArithmetic := by
  intro base offset
  rw [effectiveAddress, toNat_add_eq_emod_toInt, toInt_sext32]

/-! ### What the passages of a load and of a store share -/

/-- The Steps a load and a store have in common: both registers read, the effective address computed and latched, no
steering of `pc`. `c` is the row of R100 that tells them apart. -/
structure AccessCourse (c : Control) (rs rt : RegIdx) (offset : BitVec 16) (s2 s3 s4 : State) : Prop where
  control : s2.dx.w.ctrl = c
  base : s2.dx.w.rd1 = s2.reg rs
  source : s2.dx.w.rd2 = s2.reg rt
  refreshed : s3.aluResult = effectiveAddress (s2.reg rs) offset
  carried : s3.xm.w.ctrl = c
  latched : s3.xm.w.aluResult = s3.aluResult
  data : s3.xm.w.rd2 = s2.reg rt
  zero : s3.xm.w.zero = true ↔ s3.aluResult = 0#32
  dest : s3.xm.w.dest = rt
  pc : s4.pc = nextPc s3.pc

section
variable {w p : Word} {s : State} {c : Control} {op : BitVec 6} {rs rt : RegIdx} {offset : BitVec 16}
  (hw : w = packI op rs rt offset) (hc : controlDecode w = c) (hrow : c = Control.lw ∨ c = Control.sw)
include hw hc hrow

/-- Both rows have ALUOp 0,0 and ALUSrc 1: the dispatch adds the extended offset to the base. -/
theorem courseResult_of_access : courseResult w s = effectiveAddress (s.reg rs) offset := by
  subst hw
  rcases hrow with rfl | rfl <;> simp [courseResult, hc, Control.lw, Control.sw, effectiveAddress]

/-- Both rows have RegDst 0. -/
theorem courseDest_of_access : courseDest w = rt := by
  subst hw
  rcases hrow with rfl | rfl <;> simp [courseDest, hc, Control.lw, Control.sw]

/-- From the DX slot of a load or a store on. -/
theorem access_course (hd : InDecode w p s s.dx.w) :
    AccessCourse c rs rt offset s (cycle s) (cycle (cycle s)) := by
  obtain ⟨halu, hx⟩ := execute_step hd
  have hres := courseResult_of_access (s := s) hw hc hrow
  have hdest := courseDest_of_access hw hc hrow
  have hrs : rsOf w = rs := by rw [hw, rsOf_packI]
  have hrt : rtOf w = rt := by rw [hw, rtOf_packI]
  have hbranch : (cycle s).xm.w.ctrl.branch = false := by
    rw [hx, hc]
    rcases hrow with rfl | rfl <;> rfl
  exact {
    control := by rw [hd, hc]
    base := by rw [hd, hrs]
    source := by rw [hd, hrt]
    refreshed := by rw [halu, hres]
    carried := by rw [hx, hc]
    latched := by rw [hx, halu]
    data := by rw [hx, hrt]
    zero := by rw [hx, halu, zeroFlag_iff]
    dest := by rw [hx, hdest]
    pc := by rw [cycle_pc, branchTaken, hbranch, Bool.false_and, if_neg Bool.false_ne_true] }

end

/-! ### The load (R190) -/

section
variable {s : State}

/-- Step s + 3 of a load: the data memory is read as it stands, and kept. -/
theorem memory_step_load (h : s.xm.w.ctrl = Control.lw) :
    (cycle s).dmem = s.dmem ∧
      (cycle s).freeCount = Memory.loadCount s.capacities.dmemWords s.xm.w.aluResult s.freeCount ∧
      (cycle s).mw.w.readData = s.dmem.load s.capacities.dmemWords s.xm.w.aluResult s.freeCount := by
  simp [h, Control.lw]

/-- Step s + 4 of a load: MemToReg selects the loaded word. -/
theorem writeBack_step_load (h : s.mw.w.ctrl = Control.lw) (r : RegIdx) :
    (cycle s).reg r =
      if r = s.mw.w.dest then (if r = 0#5 then 0#32 else s.mw.w.readData) else s.reg r := by
  have hval : writeBackValue s.mw.w = s.mw.w.readData := by simp [writeBackValue, h, Control.lw]
  rw [writeBack_step (by rw [h]; rfl), hval]

end

/-- Settles O40: the shared Steps, then a Memory stage that only reads and a Write-Back of the word it latched. -/
theorem lwCourse : Obligations.LwCourse := by
  intro rt rs offset s h
  refine ⟨decodeEncodeAgree (.lw rt offset rs) rfl, ?_⟩
  obtain ⟨s2, hpassage, -, hdx⟩ := passage_of_staysWorking h
  obtain ⟨hctrl, -⟩ := ControlRow.lw rt offset rs rfl
  have hcourse := access_course rfl hctrl (.inl rfl) hdx
  obtain ⟨hmem, hfree, hread⟩ := memory_step_load hcourse.carried
  have hctrl4 : (cycle (cycle s2)).mw.w.ctrl = Control.lw := by rw [cycle_mw]; exact hcourse.carried
  have hdest4 : (cycle (cycle s2)).mw.w.dest = rt := by rw [cycle_mw]; exact hcourse.dest
  have hwrite := writeBack_step_load hctrl4
  rw [hdest4] at hwrite
  refine ⟨_, s2, _, _, _, hpassage, hcourse.control, hcourse.base, hcourse.source, hcourse.refreshed,
    hcourse.latched, hcourse.zero, hcourse.dest, hcourse.pc, hmem, (cycle (cycle s2)).mw.w.readData,
    fun hin => ⟨?_, ?_⟩, rfl, ?_, fun r hr => ?_⟩
  · rw [hread, hcourse.latched, Memory.load_of_inRange hin, Memory.cellIndex_eq]
  · rw [hfree, hcourse.latched, Memory.loadCount_of_inRange hin]
  · rw [hwrite, if_pos rfl]
  · rw [hwrite, if_neg hr]

/-! ### The store (R191) -/

section
variable {s : State}

/-- Step s + 3 of a store. -/
theorem memory_step_store (h : s.xm.w.ctrl = Control.sw) :
    (cycle s).dmem = s.dmem.store s.capacities.dmemWords s.xm.w.aluResult s.xm.w.rd2 ∧
      (cycle s).freeCount = s.freeCount := by
  simp [h, Control.sw]

/-- A cycle that fetches at `pc` keeps the data memory canonical. -/
theorem cycle_dmem_wf (h : s.dmem.wf s.capacities.dmemWords = true) :
    (cycle s).dmem.wf (cycle s).capacities.dmemWords = true :=
  workingCycle_dmem_wf h _

end

/-- Settles O41: the shared Steps, then a Memory stage that stores to a memory still canonical; RegWrite is 0. -/
theorem swCourse : Obligations.SwCourse := by
  intro rt rs offset s hwf h
  refine ⟨decodeEncodeAgree (.sw rt offset rs) rfl, ?_⟩
  obtain ⟨s2, hpassage, hs2, hdx⟩ := passage_of_staysWorking h
  have hwf3 : (cycle s2).dmem.wf (cycle s2).capacities.dmemWords = true := by
    rw [hs2]
    exact cycle_dmem_wf (cycle_dmem_wf (workingCycle_dmem_wf hwf _))
  obtain ⟨hctrl, -⟩ := ControlRow.sw rt offset rs rfl
  have hcourse := access_course rfl hctrl (.inr rfl) hdx
  obtain ⟨hmem, hfree⟩ := memory_step_store hcourse.carried
  rw [hcourse.latched, hcourse.data] at hmem
  have hquiet : (cycle (cycle s2)).mw.w.ctrl.regWrite = false := by
    rw [cycle_mw, hcourse.carried]
    rfl
  refine ⟨_, s2, _, _, _, hpassage, hcourse.control, hcourse.refreshed, hcourse.latched, hcourse.data, hcourse.zero,
    hcourse.dest, hcourse.pc, hfree, fun k => ?_, fun hout => ?_, writeBack_step_quiet hquiet⟩
  · rw [hmem, Memory.cell_store hwf3]
    simp only [Memory.inRange_iff, Memory.cellIndex_eq]
  · rw [hmem, Memory.store_of_not_inRange _ (Memory.inRange_eq_false_iff.mpr hout)]

end Sys2Proof.Machine
end

section
/-! The branch (R200 to R203): its target as integer arithmetic (O18), its passage (O42), and the addresses fetched behind it
(O45). -/

namespace Sys2Proof.Machine

open Laws

/-! ### The branch target (R201) -/

/-- The target counts words from the address after the branch, modulo 2^32: what the shift drops is a multiple of
2^32, and so is what the signed reading takes off. -/
theorem toNat_branchTarget (pc4 imm : Word) :
    ((branchTarget pc4 imm).toNat : Int) = ((pc4.toNat : Int) + 4 * imm.toInt) % 2 ^ 32 := by
  rw [branchTarget, BitVec.toNat_add, BitVec.toNat_shiftLeft, Nat.shiftLeft_eq, BitVec.toInt_eq_toNat_cond]
  split <;> omega

/-- Settles O18: the address after P stands in the target's sum as P + 4; both additions keep a multiple of 4 one. -/
theorem branchTargetArithmetic : Obligations.BranchTargetArithmetic := by
  intro p offset
  refine ⟨?_, fun hp => ?_⟩
  · rw [toNat_branchTarget, toInt_sext32, nextPc, BitVec.toNat_add, BitVec.toNat_ofNat]
    omega
  · rw [← aligned_iff] at hp ⊢
    exact aligned_branchTarget (aligned_nextPc hp) _

/-! ### The passage of a branch (R200) -/

/-- Two words are equal exactly when the branch's subtraction sets Zero (R109). -/
theorem zeroFlag_sub_iff (a b : Word) : zeroFlag (a - b) = true ↔ a = b := by
  rw [zeroFlag_iff, BitVec.sub_eq_iff_eq_add, BitVec.zero_add]

/-- The Steps of a branch once its word is in DX: the comparison in Step s + 2, the steering of `pc` in Step s + 3, no
access and no register written. -/
structure BranchCourse (rs rt : RegIdx) (target : Word) (s2 s3 s4 s5 : State) : Prop where
  control : s2.dx.w.ctrl = Control.beq
  refreshed : s3.aluResult = s2.reg rs - s2.reg rt
  zero : s3.xm.w.zero = true ↔ s2.reg rs = s2.reg rt
  latched : s3.xm.w.branchTarget = target
  pc : s4.pc = if s2.reg rs = s2.reg rt then target else nextPc s3.pc
  memory : s4.dmem = s3.dmem
  free : s4.freeCount = s3.freeCount
  registers : s5.x = s4.x

section
variable {s : State}

/-- Step s + 3 of a branch: Zero alone decides, as Branch is 1; the beq row accesses no memory. -/
theorem memory_step_branch (h : s.xm.w.ctrl = Control.beq) :
    (cycle s).pc = (if s.xm.w.zero = true then s.xm.w.branchTarget else nextPc s.pc) ∧
      (cycle s).dmem = s.dmem ∧ (cycle s).freeCount = s.freeCount := by
  simp [branchTaken, h, Control.beq]

/-- The beq row has ALUOp 0,1 and ALUSrc 0: the dispatch subtracts the two registers. -/
theorem courseResult_of_beq (rs rt : RegIdx) (offset : BitVec 16) :
    courseResult (encode (.beq rs rt offset)) s = s.reg rs - s.reg rt := by
  obtain ⟨hctrl, -⟩ := ControlRow.beq rs rt offset rfl
  rw [courseResult, hctrl]
  simp [ControlRow.row, Control.beq, encode]

/-- The course of a branch fetched at `p`, from its DX slot on. -/
theorem branch_course {rs rt : RegIdx} {offset : BitVec 16} {p : Word}
    (hd : InDecode (encode (.beq rs rt offset)) p s s.dx.w) :
    BranchCourse rs rt (branchTarget (nextPc p) (sext32 offset)) s (cycle s) (cycle (cycle s))
      (cycle (cycle (cycle s))) := by
  obtain ⟨hrow, -⟩ := ControlRow.beq rs rt offset rfl
  obtain ⟨halu, hx⟩ := execute_step hd
  rw [courseResult_of_beq] at halu hx
  have hctrl : (cycle s).xm.w.ctrl = Control.beq := by rw [hx, hrow]; rfl
  have hzero : (cycle s).xm.w.zero = true ↔ s.reg rs = s.reg rt := by rw [hx, zeroFlag_sub_iff]
  have htarget : (cycle s).xm.w.branchTarget = branchTarget (nextPc p) (sext32 offset) := by
    rw [hx, encode, offsetOf_packI]
  obtain ⟨hpc, hmem, hfree⟩ := memory_step_branch hctrl
  simp only [hzero, htarget] at hpc
  have hquiet : (cycle (cycle s)).mw.w.ctrl.regWrite = false := by rw [cycle_mw, hctrl]; rfl
  exact {
    control := by rw [hd, hrow]; rfl
    refreshed := halu
    zero := hzero
    latched := htarget
    pc := hpc
    memory := hmem
    free := hfree
    registers := writeBack_step_quiet hquiet }

end

/-- Settles O42: the word decodes back, Step s latches it with P + 4, and the rest is the branch's course from DX on; Step
s + 3 fetches at the `pc` it finds. -/
theorem beqCourse : Obligations.BeqCourse := by
  intro rs rt offset s h
  refine ⟨decodeEncodeAgree (.beq rs rt offset) rfl, ?_⟩
  obtain ⟨s2, hpassage, -, hdx⟩ := passage_of_staysWorking h
  have hcourse := branch_course hdx
  have hfetch : (cycle (cycle s2)).fd.w.instr = iMemRead (cycle s2) (cycle s2).pc := by rw [cycle_fd]
  exact ⟨_, s2, _, _, _, hpassage, rfl, rfl, hcourse.control, hcourse.refreshed, hcourse.zero, hcourse.latched,
    hfetch, hcourse.pc, hcourse.memory, hcourse.free, hcourse.registers⟩

/-! ### The shadow of a branch (R202) -/

/-- The address after one that stands `k` bytes behind `p`. -/
theorem nextPc_add (p k : Word) : nextPc (p + k) = p + (k + 4#32) := BitVec.add_assoc p k 4#32

/-- Without a branch in XM the next fetch is at the address after `pc` (R138). -/
theorem workingCycle_pc_of_no_branch {s : State} (h : s.xm.w.ctrl.branch = false) (w : Word) :
    (workingCycle w s).pc = nextPc s.pc := by
  simp [branchTaken, h]

/-- Settles O45: the branches that could steer Steps s to s + 2 would stand in XM, DX and FD at the start; none does, so
`pc` counts on until the branch's own Step s + 3. -/
theorem branchShadow : Obligations.BranchShadow := by
  intro rs rt offset s h hxm hdx hfd
  obtain ⟨s2, hpassage, hs2, hdecode⟩ := passage_of_staysWorking h
  have hcourse := branch_course hdecode
  have hpc1 : (workingCycle (encode (.beq rs rt offset)) s).pc = s.pc + 4#32 :=
    workingCycle_pc_of_no_branch hxm _
  have hpc2 : s2.pc = s.pc + 8#32 := by
    rw [hs2, cycle_eq, workingCycle_pc_of_no_branch hdx, hpc1]
    exact nextPc_add s.pc 4#32
  have hxm2 : s2.xm.w.ctrl.branch = false := by rw [hs2]; exact hfd
  have hpc3 : (cycle s2).pc = s.pc + 12#32 := by
    rw [cycle_eq, workingCycle_pc_of_no_branch hxm2, hpc2]
    exact nextPc_add s.pc 8#32
  have hpc4 : nextPc (cycle s2).pc = s.pc + 16#32 := by
    rw [hpc3]
    exact nextPc_add s.pc 12#32
  refine ⟨_, s2, _, _, _, hpassage, hpc1, hpc2, hpc3, ?_⟩
  rw [hcourse.pc, hpc4]
  rfl

end Sys2Proof.Machine
end

section
/-! The no-op row: the passages of `nop` and of an unknown opcode (O43, O44), and the harmless reset content of the buffers,
which the first three calls of a launched run push out (O49). -/

namespace Sys2Proof.Machine

open Laws

/-! ### The passage of an instruction with the no-op row (R210, R211) -/

/-- The five Steps of such an instruction: once its word is in DX, nothing but its row matters. -/
theorem passage_of_noOp {i : Instr} {s : State} (hctrl : controlDecode (encode i) = Control.noOp)
    (h : StaysWorking i s) :
    ∃ s1 s2 s3 s4 s5, Passage i s s1 s2 s3 s4 s5 ∧ NoOpCourse s2 s3 s4 s5 := by
  obtain ⟨s2, hpassage, -, hdx⟩ := passage_of_staysWorking h
  exact ⟨_, s2, _, _, _, hpassage, noOp_course hdx hctrl⟩

/-- Settles O43: the zero word is decoded to `nop` and forces the no-op row. -/
theorem nopCourse : Obligations.NopCourse := by
  intro s h
  obtain ⟨hctrl, -⟩ := ControlRow.nop rfl
  exact ⟨decode_zero, passage_of_noOp hctrl h⟩

/-- Settles O44: an opcode without a row of its own makes the instruction well formed, so that its word decodes back and gets
the no-op row. -/
theorem unknownCourse : Obligations.UnknownCourse := by
  intro opcode rest s h0 hbeq hlw hsw h
  have hwf : (Instr.unknown opcode rest).wf = true := by
    rw [Instr.wf, namedOpCode_eq_false_iff.mpr ⟨h0, hlw, hsw, hbeq⟩, Bool.not_false]
  obtain ⟨hctrl, -⟩ := ControlRow.unknown opcode rest hwf
  exact ⟨decodeEncodeAgree (.unknown opcode rest) hwf, passage_of_noOp hctrl h⟩

/-! ### Control vectors that let a cycle only count `pc` on -/

/-- A control vector with no branch, no access and no register write: the reset content (R38) and the no-op row (R101). -/
def Control.Inert (c : Control) : Prop :=
  c.branch = false ∧ c.memRead = false ∧ c.memWrite = false ∧ c.regWrite = false

theorem Control.inert_allZero : Control.allZero.Inert := ⟨rfl, rfl, rfl, rfl⟩

theorem Control.inert_noOp : Control.noOp.Inert := ⟨rfl, rfl, rfl, rfl⟩

section
variable {s : State}

/-- What a cycle does beside Execute, Decode and Fetch's latch depends on the vectors in XM and MW alone. -/
theorem cycle_of_inert (hxm : s.xm.w.ctrl.Inert) (hmw : s.mw.w.ctrl.Inert) :
    (cycle s).x = s.x ∧ (cycle s).dmem = s.dmem ∧ (cycle s).pc = nextPc s.pc := by
  obtain ⟨hbranch, hread, hwrite, -⟩ := hxm
  obtain ⟨-, -, -, hreg⟩ := hmw
  obtain ⟨hpc, hdmem, -⟩ := memory_step_quiet hbranch hread hwrite
  exact ⟨writeBack_step_quiet hreg, hdmem, hpc⟩

/-- As long as both vectors stay inert, registers and data memory stand still and `pc` counts on. -/
theorem cycles_of_inert {n : Nat}
    (h : ∀ k < n, (cycles k s).xm.w.ctrl.Inert ∧ (cycles k s).mw.w.ctrl.Inert) :
    (cycles n s).x = s.x ∧ (cycles n s).dmem = s.dmem ∧ (cycles n s).pc = s.pc + BitVec.ofNat 32 (4 * n) := by
  induction n with
  | zero => exact ⟨rfl, rfl, (BitVec.add_zero s.pc).symm⟩
  | succ n ih =>
    obtain ⟨hx, hdmem, hpc⟩ := ih fun k hk => h k (Nat.lt_succ_of_lt hk)
    obtain ⟨hxm, hmw⟩ := h n (Nat.lt_succ_self n)
    obtain ⟨hx', hdmem', hpc'⟩ := cycle_of_inert hxm hmw
    rw [cycles_succ]
    refine ⟨hx'.trans hx, hdmem'.trans hdmem, ?_⟩
    rw [hpc', hpc, nextPc_add, Nat.mul_succ, BitVec.ofNat_add]

/-! ### The reset content on its way through the pipeline (R212) -/

theorem Launched.pc_eq (h : Launched s) : s.pc = 0#32 := congrArg (·.pc) h.1

theorem Launched.aluResult_eq (h : Launched s) : s.aluResult = 0#32 := congrArg (·.aluResult) h.1

theorem Launched.fd_instr_eq (h : Launched s) : s.fd.w.instr = 0#32 := congrArg (·.fd.w.instr) h.1

theorem Launched.dx_eq (h : Launched s) : s.dx.w = ⟨0#32, 0#32, 0#32, 0#32, 0#32, Control.allZero⟩ :=
  congrArg (·.dx.w) h.1

theorem Launched.xm_ctrl_eq (h : Launched s) : s.xm.w.ctrl = Control.allZero := congrArg (·.xm.w.ctrl) h.1

theorem Launched.mw_ctrl_eq (h : Launched s) : s.mw.w.ctrl = Control.allZero := congrArg (·.mw.w.ctrl) h.1

/-- The vectors XM and MW come to hold in the first three cycles were in DX, XM and MW at the launch, or are what Decode makes
of the zero word in FD. -/
theorem Launched.inert (h : Launched s) {k : Nat} (hk : k < 3) :
    (cycles k s).xm.w.ctrl.Inert ∧ (cycles k s).mw.w.ctrl.Inert := by
  have hfd : (controlDecode s.fd.w.instr).Inert := by rw [h.fd_instr_eq]; exact Control.inert_noOp
  have hdx : s.dx.w.ctrl.Inert := by rw [h.dx_eq]; exact Control.inert_allZero
  have hxm : s.xm.w.ctrl.Inert := by rw [h.xm_ctrl_eq]; exact Control.inert_allZero
  have hmw : s.mw.w.ctrl.Inert := by rw [h.mw_ctrl_eq]; exact Control.inert_allZero
  match k, hk with
  | 0, _ => exact ⟨hxm, hmw⟩
  | 1, _ => exact ⟨hdx, hxm⟩
  | 2, _ => exact ⟨hfd, hdx⟩

/-- The no-op row's dispatch retains (R108, D16). -/
theorem dispatchAlu_of_noOp {d : DxSlot} (hd : d.ctrl = Control.noOp) (held : Word) : dispatchAlu d held = held := by
  have hsel : aluControl d.ctrl.aluOp1 d.ctrl.aluOp0 (functInput d) = 8#4 := by
    rw [hd]; exact aluControl_noOp _
  rw [dispatchAlu, hsel]
  exact alu_retains (by decide) (by decide) (by decide) (by decide) _ _ held

/-- The first dispatch adds the zeros of DX's reset content, the second is that of the zero word in FD and retains. -/
theorem Launched.aluResult_cycles (h : Launched s) {n : Nat} (hn : n ≤ 2) : (cycles n s).aluResult = 0#32 := by
  have hfirst : (cycle s).aluResult = 0#32 := by rw [cycle_aluResult, h.dx_eq]; rfl
  have hnop : (cycle s).dx.w.ctrl = Control.noOp := by rw [cycle_dx, h.fd_instr_eq]; rfl
  match n, hn with
  | 0, _ => exact h.aluResult_eq
  | 1, _ => exact hfirst
  | 2, _ => exact (dispatchAlu_of_noOp hnop _).trans hfirst

end

/-- Settles O49: the reset content keeps the first three cycles inert, and no instruction is executed in the first two. -/
theorem resetContentIsHarmless : Obligations.ResetContentIsHarmless := by
  intro s n h hn hworking
  obtain ⟨hx, hdmem, hpc⟩ := cycles_of_inert fun k (hk : k < n) => h.inert (hk.trans_le hn)
  rw [h.pc_eq, BitVec.zero_add] at hpc
  exact ⟨run_of_working n hworking, hx, hdmem, hpc, h.aluResult_cycles⟩

end Sys2Proof.Machine
end

section
/-! Obligations about the interface to the outside: the loader's accesses as updates of the state (O53, O54, O55), a word
placed where the next call fetches (O56), and snapshots (O60). -/

namespace Sys2Proof.Machine

/-! ### The loader's accesses as updates of the state (R221) -/

/-- An access of the loader is accepted: its register exists (R23), or its instruction's place does (R223). What stands in
the machine takes no part, only how large it is. -/
def LoaderAction.Accepted (c : Config.Capacities) : LoaderAction → Prop
  | .regWrite i _ => 0 ≤ i ∧ i < 32
  | .instrWrite addr _ => Memory.inRange c.imemWords addr = true
  | .dataWrite _ _ => True
  | .setMaxPc _ => True

/-- What an accepted access makes of the state: one register, one cell or MAX_PC is written. -/
def LoaderAction.apply : LoaderAction → State → State
  | .regWrite i v, s => { s with x := RegFile.write s.x (BitVec.ofInt 5 i) v }
  | .instrWrite addr v, s => { s with imem := s.imem.store s.capacities.imemWords addr v }
  | .dataWrite addr v, s => hostDataWrite addr v s
  | .setMaxPc v, s => Machine.setMaxPc v s

theorem hostRegWrite_eq_next {i : Int} {v : Word} {s t : State} :
    hostRegWrite i v s = .next t ↔
      (0 ≤ i ∧ i < 32) ∧ t = { s with x := RegFile.write s.x (BitVec.ofInt 5 i) v } := by
  unfold hostRegWrite hostIndex
  by_cases h : 0 ≤ i ∧ i < 32 <;> simp [h, eq_comm]

theorem hostInstrWrite_eq_next {addr v : Word} {s t : State} :
    hostInstrWrite addr v s = .next t ↔ Memory.inRange s.capacities.imemWords addr = true ∧
      t = { s with imem := s.imem.store s.capacities.imemWords addr v } := by
  unfold hostInstrWrite
  by_cases h : Memory.inRange s.capacities.imemWords addr = true <;> simp [h, eq_comm]

/-- An access of the loader answers a state exactly when it is accepted, and then the state it makes. -/
theorem loaderAct_eq_next {a : LoaderAction} {s t : State} :
    loaderAct a s = .next t ↔ a.Accepted s.capacities ∧ t = a.apply s := by
  cases a with
  | regWrite i v => exact hostRegWrite_eq_next
  | instrWrite addr v => exact hostInstrWrite_eq_next
  | dataWrite addr v => simp [loaderAct, LoaderAction.Accepted, LoaderAction.apply, eq_comm]
  | setMaxPc v => simp [loaderAct, LoaderAction.Accepted, LoaderAction.apply, eq_comm]

@[simp] theorem LoaderAction.apply_capacities (a : LoaderAction) (s : State) :
    (a.apply s).capacities = s.capacities := by cases a <;> rfl

theorem loaderRun_singleton (a : LoaderAction) (s : State) : loaderRun [a] s = loaderAct a s := by
  rw [loaderRun]
  cases loaderAct a s <;> rfl

/-- Two accesses in a row: the first changes nothing that the second's acceptance depends on. -/
theorem loaderRun_pair_eq_next {a b : LoaderAction} {s t : State} :
    loaderRun [a, b] s = .next t ↔
      a.Accepted s.capacities ∧ b.Accepted s.capacities ∧ t = b.apply (a.apply s) := by
  rw [loaderRun_cons_eq_next]
  simp only [loaderRun_singleton, loaderAct_eq_next, and_assoc, exists_and_left, exists_eq_left,
    LoaderAction.apply_capacities]

/-! ### Writes to different places commute -/

/-- Writes to two registers in either order. -/
theorem RegFile.write_comm {i j : RegIdx} (hij : i ≠ j) (x : RegFile) (v w : Word) :
    RegFile.write (RegFile.write x i v) j w = RegFile.write (RegFile.write x j w) i v := by
  have hne : i.toNat ≠ j.toNat := fun h => hij (BitVec.eq_of_toNat_eq h)
  unfold RegFile.write
  split_ifs
  · rfl
  · rfl
  · rfl
  · exact Vector.set_comm v w hne

/-- Stores to two cells in either order: the same content, and so the same canonical data. -/
theorem Memory.store_comm {m : Memory} {words : Nat} (hwf : m.wf words = true) {a b : Word}
    (hab : cellIndex a ≠ cellIndex b) (v w : Word) :
    (m.store words a v).store words b w = (m.store words b w).store words a v := by
  have hwfa := store_wf hwf a v
  have hwfb := store_wf hwf b w
  refine ext_of_wf (store_wf hwfa b w) (store_wf hwfb a v) fun k => ?_
  rw [cell_store hwfa, cell_store hwf, cell_store hwfb, cell_store hwf]
  by_cases hk : k = cellIndex a <;> simp [hk, hab]

/-- Among the indexes of registers a 5-bit field tells all apart (R23). -/
theorem ofInt_inj_of_register {i j : Int} (hi : 0 ≤ i ∧ i < 32) (hj : 0 ≤ j ∧ j < 32) :
    BitVec.ofInt 5 i = BitVec.ofInt 5 j ↔ i = j := by
  rw [← BitVec.toNat_inj, BitVec.toNat_ofInt, BitVec.toNat_ofInt]
  omega

/-- Two accesses of different kinds write different fields; two of one kind that touch different things write different
registers or cells. -/
theorem LoaderAction.apply_comm {a b : LoaderAction} {s : State}
    (hi : s.imem.wf s.capacities.imemWords = true) (hd : s.dmem.wf s.capacities.dmemWords = true)
    (ha : a.Accepted s.capacities) (hb : b.Accepted s.capacities) (h : DifferentTargets a b) :
    b.apply (a.apply s) = a.apply (b.apply s) := by
  cases a with
  | regWrite i v =>
    cases b with
    | regWrite j w =>
      have hij : BitVec.ofInt 5 i ≠ BitVec.ofInt 5 j := mt (ofInt_inj_of_register ha hb).mp h
      simp only [apply, RegFile.write_comm hij]
    | _ => rfl
  | instrWrite addr v =>
    cases b with
    | instrWrite addr' w => simp only [apply, Memory.store_comm hi h]
    | _ => rfl
  | dataWrite addr v =>
    cases b with
    | dataWrite addr' w => simp only [apply, hostDataWrite, Memory.store_comm hd h]
    | _ => rfl
  | setMaxPc v =>
    cases b with
    | setMaxPc w => exact h.elim
    | _ => rfl

/-- Settles O54: both orders are accepted alike, and the two updates commute. -/
theorem loaderOrderIsFree : Obligations.LoaderOrderIsFree := by
  intro a b s t hi hd hdiff hrun
  obtain ⟨ha, hb, rfl⟩ := loaderRun_pair_eq_next.mp hrun
  exact loaderRun_pair_eq_next.mpr ⟨hb, ha, LoaderAction.apply_comm hi hd ha hb hdiff⟩

/-! ### From reset to the launch (R228) -/

/-- No access of the loader touches anything the invariant speaks of but the memories, which stay canonical, and the
storage of register 0, which no write reaches. -/
theorem loaderAct_inv {a : LoaderAction} {s t : State} (hact : loaderAct a s = .next t) (h : s.Inv) : t.Inv := by
  obtain ⟨hi, hd⟩ := loaderAct_wf h.imemWf h.dmemWf hact
  obtain ⟨-, rfl⟩ := loaderAct_eq_next.mp hact
  cases a with
  | regWrite i v => exact { h with zeroRegister := (RegFile.write_slotZero _ _ _).trans h.zeroRegister }
  | instrWrite addr v => exact { h with imemWf := hi }
  | dataWrite addr v => exact { h with dmemWf := hd }
  | setMaxPc v => exact { h with }

/-- All but the registers, MAX_PC and the memories stands at its reset value (R228 premises 1 and 4). -/
def State.ResetButLoaded (s : State) : Prop :=
  s = { State.resetWith s.capacities with
        x := s.x, maxPc := s.maxPc, imem := s.imem, dmem := s.dmem, freeCount := s.freeCount }

theorem launched_iff {s : State} : Launched s ↔ s.ResetButLoaded ∧ s.imem.wf s.capacities.imemWords = true ∧
    s.dmem.wf s.capacities.dmemWords = true ∧ s.launchable = true := Iff.rfl

theorem loaderAct_resetButLoaded {a : LoaderAction} {s t : State} (hact : loaderAct a s = .next t)
    (h : s.ResetButLoaded) : t.ResetButLoaded := by
  obtain ⟨-, rfl⟩ := loaderAct_eq_next.mp hact
  have happly := congrArg a.apply h
  cases a <;> exact happly

/-- Settles O53: the reset state meets the invariant and has nothing loaded, and every access of the loader keeps both. -/
theorem loaderReachesLaunch : Obligations.LoaderReachesLaunch := by
  intro s t actions hi hd hrun hlaunch
  have hreset : (resetMachine s).Inv :=
    resetWith_inv (Memory.words_pos hi) (Memory.words_le hi) (Memory.words_pos hd) (Memory.words_le hd) s.freeCount
  have hinv : t.Inv := loaderRun_preserves (fun _ _ _ => loaderAct_inv) hrun hreset
  have hloaded : t.ResetButLoaded := loaderRun_preserves (fun _ _ _ => loaderAct_resetButLoaded) hrun rfl
  exact ⟨launched_iff.mpr ⟨hloaded, hinv.imemWf, hinv.dmemWf, hlaunch⟩, hinv⟩

/-! ### The end of the memories (R223) -/

/-- Settles O55: the range test of each accessor, decided on either side. -/
theorem loaderStopsAtInstructionStore : Obligations.LoaderStopsAtInstructionStore := by
  intro s addr v
  refine ⟨fun hout => ?_, fun hin => ?_, fun hout => ?_⟩
  · simp [hostInstrWrite, Memory.inRange_eq_false_iff.mpr hout]
  · exact ⟨_, hostInstrWrite_eq_next.mpr ⟨Memory.inRange_iff.mpr hin, rfl⟩, rfl, rfl⟩
  · rw [hostDataWrite, Memory.store_of_not_inRange v (Memory.inRange_eq_false_iff.mpr hout)]

/-! ### A word placed where the next call fetches (log 6) -/

/-- The highest MAX_PC of a launch, as a number: a capacity R5 allows is small enough that it does not wrap. -/
theorem toNat_topMaxPc {s : State} (h : s.imem.wf s.capacities.imemWords = true) :
    (topMaxPc s).toNat = 4 * s.capacities.imemWords - 1 := by
  have hle := Memory.words_le h
  rw [topMaxPc, BitVec.toNat_ofNat]
  omega

/-- A call that would not work with the MAX_PC that stands works with the highest. -/
theorem placeNext_working {s : State} (hwf : s.imem.wf s.capacities.imemWords = true)
    (hin : Memory.inRange s.capacities.imemWords s.pc = true) (word : Word) : Working (placeNext word s) := by
  have hpc := Memory.inRange_iff.mp hin
  have hpos := Memory.words_pos hwf
  have htop := toNat_topMaxPc hwf
  rw [Working, running_iff, launchable_iff, placeNext_pc, placeNext_maxPc, placeNext_capacities]
  split
  case isTrue hworking =>
    rw [Bool.and_eq_true, running_iff, launchable_iff] at hworking
    exact hworking
  case isFalse =>
    have hne : topMaxPc s ≠ 0#32 := by
      rw [Ne, ← BitVec.toNat_inj, htop, BitVec.toNat_ofNat]
      omega
    exact ⟨⟨hne, by omega⟩, by omega⟩

/-- The next call fetches the placed word. -/
theorem iMemRead_placeNext {s : State} (hwf : s.imem.wf s.capacities.imemWords = true)
    (hin : Memory.inRange s.capacities.imemWords s.pc = true) (word : Word) :
    iMemRead (placeNext word s) (placeNext word s).pc = word := by
  rw [iMemRead, Memory.wordAt, placeNext_imem, placeNext_pc, Memory.cell_store hwf, if_pos ⟨hin, rfl⟩]

/-- Settles O56: the call works, so it runs the word it fetches, which is the one placed. -/
theorem placedWordRunsNext : Obligations.PlacedWordRunsNext := by
  intro s w hwf hin hw
  rw [State.withFetchWord, Nat.mod_eq_of_lt hw]
  have hworking := placeNext_working hwf hin (BitVec.ofNat 32 w)
  have ⟨hstep, _⟩ := stepRunsDecodedInstruction _ _ hworking rfl
  rw [iMemRead_placeNext hwf hin] at hstep
  exact ⟨hworking, hstep⟩

/-! ### Snapshots (R226) -/

/-- Two states of the hardware with one snapshot agree in every field the snapshot has. -/
theorem snapshot_eq_iff {g h : Hardware} :
    snapshot g = snapshot h ↔ h = { g with aluResult := h.aluResult, freeCount := h.freeCount } := by
  constructor
  · intro heq
    cases g
    cases h
    cases heq
    rfl
  · exact fun heq => (congrArg snapshot heq).symm

/-- Settles O60: a working call latches the ALU result in XM as it keeps it. -/
theorem snapshotIsAllButAluResult : Obligations.SnapshotIsAllButAluResult := by
  refine ⟨fun _ _ => snapshot_eq_iff, fun s hworking => ⟨cycle s, step_of_working hworking, ?_⟩⟩
  rw [snapshot_xm, cycle_xm, cycle_aluResult]

end Sys2Proof.Machine
end

section
/-! The caller's loop over a launched program without a branch: where its calls fetch, what they answer, and how the run
ends (O48). -/

namespace Sys2Proof.Machine

/-! ### Programs without a branch (R265) -/

theorem controlDecode_branch_eq_false {w : Word} (h : opCodeOf w ≠ 4#6) : (controlDecode w).branch = false := by
  obtain ⟨-, -, -, hbranch, -, -⟩ := signalsBelongToTheirOpcodes w
  rw [← Bool.not_eq_true, hbranch]
  exact h

/-- No branch stands in the instruction memory, and none in a buffer from which it could still steer `pc` (R138). -/
structure State.BranchFree (s : State) : Prop where
  imem : ∀ i, opCodeOf (s.imem.cell i) ≠ 4#6
  fd : opCodeOf s.fd.w.instr ≠ 4#6
  dx : s.dx.w.ctrl.branch = false
  xm : s.xm.w.ctrl.branch = false

section
variable {s : State}

/-- Each buffer takes over what the one before it held, and FD a word of the instruction memory. -/
theorem branchFree_cycle (h : s.BranchFree) : (cycle s).BranchFree where
  imem := h.imem
  fd := h.imem (cellIndex s.pc)
  dx := controlDecode_branch_eq_false h.fd
  xm := h.dx

theorem branchFree_cycles (h : s.BranchFree) (n : Nat) : (cycles n s).BranchFree := by
  induction n with
  | zero => exact h
  | succ n ih => exact branchFree_cycle ih

/-- Nothing steers: `pc` counts on. -/
theorem cycles_pc_of_branchFree (h : s.BranchFree) (n : Nat) :
    (cycles n s).pc = s.pc + BitVec.ofNat 32 (4 * n) := by
  induction n with
  | zero => exact (BitVec.add_zero s.pc).symm
  | succ n ih =>
    rw [cycles_succ, cycle_eq, workingCycle_pc_of_no_branch (branchFree_cycles h n).xm, ih, nextPc_add, Nat.mul_succ,
      BitVec.ofNat_add]

/-- A launched machine with no branch in its instruction memory: the reset content of the buffers has none either. -/
theorem Launched.branchFree (h : Launched s) (himem : ∀ i, opCodeOf (s.imem.cell i) ≠ 4#6) : s.BranchFree where
  imem := himem
  fd := by rw [h.fd_instr_eq]; decide
  dx := by rw [h.dx_eq]; rfl
  xm := by rw [h.xm_ctrl_eq]; rfl

@[simp] theorem cycles_maxPc (n : Nat) (s : State) : (cycles n s).maxPc = s.maxPc := by
  induction n with
  | zero => rfl
  | succ n ih => exact ih

@[simp] theorem cycles_capacities (n : Nat) (s : State) : (cycles n s).capacities = s.capacities := by
  induction n with
  | zero => rfl
  | succ n ih => exact ih

/-- The runs whose end R229 and R265 count: launched, MAX_PC set and low enough that `pc` passes it without wrapping to 0,
and no branch in the instruction memory. -/
structure StraightLine (s : State) : Prop where
  launched : Launched s
  loaded : s.maxPc ≠ 0#32
  noWrap : s.maxPc.toNat < 0xFFFFFFFC
  noBranch : ∀ i, opCodeOf (s.imem.cell i) ≠ 4#6

namespace StraightLine
variable (h : StraightLine s)
include h

/-- The addresses fetched, up to the first one past MAX_PC. -/
theorem toNat_cycles_pc {n : Nat} (hn : 4 * n ≤ s.maxPc.toNat + 4) : (cycles n s).pc.toNat = 4 * n := by
  have hmax := h.noWrap
  rw [cycles_pc_of_branchFree (h.launched.branchFree h.noBranch), h.launched.pc_eq, BitVec.zero_add, BitVec.toNat_ofNat]
  omega

theorem working_cycles {n : Nat} (hn : 4 * n ≤ s.maxPc.toNat) : Working (cycles n s) := by
  have hpc := h.toNat_cycles_pc (n := n) (by omega)
  obtain ⟨-, -, -, hlaunch⟩ := h.launched
  rw [Working, running_iff, launchable_iff, cycles_maxPc, cycles_capacities, hpc]
  exact ⟨⟨h.loaded, hn⟩, launchable_iff.mp hlaunch⟩

/-- A working call of such a run answers by the address it leaves (R139). -/
theorem stepAnswer_cycles {n : Nat} (hn : 4 * n ≤ s.maxPc.toNat) :
    stepAnswer (cycles n s) =
      .next (cycles (n + 1) s, if 4 * (n + 1) ≤ s.maxPc.toNat then .cont else .halt) := by
  have hwork := h.working_cycles hn
  rw [stepAnswer_of_next (step_of_working hwork), answer_of_running hwork.1, ← cycles_succ,
    h.toNat_cycles_pc (by omega), cycles_maxPc]

end StraightLine
end

/-! ### The caller's loop (R225) -/

section
variable {s t : State} (n : Nat)

theorem callerLoop_succ_of_cont (h : stepAnswer s = .next (t, .cont)) : callerLoop (n + 1) s = callerLoop n t := by
  rw [callerLoop, h]

theorem callerLoop_succ_of_halt (h : stepAnswer s = .next (t, .halt)) :
    callerLoop (n + 1) s = .next (t, .halt) := by
  rw [callerLoop, h]

/-- Calls that answer "continue" are passed one after another. -/
theorem callerLoop_add_of_cont {k : Nat}
    (h : ∀ j < k, stepAnswer (cycles j s) = .next (cycles (j + 1) s, .cont)) :
    callerLoop (n + k) s = callerLoop n (cycles k s) := by
  induction k generalizing n with
  | zero => rfl
  | succ k ih =>
    calc callerLoop (n + (k + 1)) s
        = callerLoop (n + 1 + k) s := by rw [Nat.add_right_comm]; rfl
      _ = callerLoop (n + 1) (cycles k s) := ih (n + 1) fun j hj => h j (Nat.lt_succ_of_lt hj)
      _ = callerLoop n (cycles (k + 1) s) := callerLoop_succ_of_cont n (h k (Nat.lt_succ_self k))

end

/-- Up to the address MAX_PC selects, the caller's loop goes on. -/
theorem StraightLine.callerLoop_add {s : State} (h : StraightLine s) (n : Nat) {k : Nat}
    (hk : k ≤ s.maxPc.toNat / 4) : callerLoop (n + k) s = callerLoop n (cycles k s) := by
  refine callerLoop_add_of_cont n fun j hj => ?_
  rw [h.stepAnswer_cycles (by omega), if_pos (by omega)]

/-- Settles O48: the calls before the one at 4 * (MAX_PC / 4) leave an address not past MAX_PC, that one leaves the first
past it, where the guard stops every further call. -/
theorem straightLineRunEnds : Obligations.StraightLineRunEnds := by
  intro s hlaunched hloaded hmax himem
  have h : StraightLine s := ⟨hlaunched, hloaded, hmax, himem⟩
  refine ⟨fun n hn => ?_, fun n hn => ?_, run_of_not_running ?_⟩
  · have hloop := h.callerLoop_add 0 hn
    rwa [Nat.zero_add] at hloop
  · obtain ⟨m, rfl⟩ : ∃ m, n = m + 1 + s.maxPc.toNat / 4 := ⟨n - (s.maxPc.toNat / 4 + 1), by omega⟩
    have hlast := h.stepAnswer_cycles (n := s.maxPc.toNat / 4) (by omega)
    rw [if_neg (by omega)] at hlast
    rw [h.callerLoop_add _ le_rfl]
    exact callerLoop_succ_of_halt _ hlast
  · refine not_running_of_maxPc_lt_pc ?_
    rw [cycles_maxPc, h.toNat_cycles_pc (by omega)]
    omega

end Sys2Proof.Machine
end

section
/-! The outcomes of a call (O22), and draining: how far a launched program without a branch comes (O47). -/

namespace Sys2Proof.Machine

/-- Settles O22: a call is stopped by the guard, works, or is declined, and only a launch with MAX_PC past the
instruction memory is declined. -/
theorem stepNeverRaises : Obligations.StepNeverRaises := by
  intro s
  rcases step_cases s with ⟨-, hstep⟩ | ⟨-, hstep⟩ | ⟨hrun, hlaunch, hstep⟩
  · simp [hstep]
  · simp [hstep]
  · obtain ⟨hloaded, hpc⟩ := running_iff.mp hrun
    rw [← Bool.not_eq_true, launchable_iff, Nat.not_lt] at hlaunch
    rw [hstep]
    refine ⟨by simp, ?_, fun hlt => absurd hlaunch (Nat.not_le_of_lt hlt)⟩
    rintro _ ⟨⟩
    exact ⟨rfl, hloaded, hpc, hlaunch⟩

/-- The first call past the address MAX_PC selects is stopped (R144, R265). -/
theorem StraightLine.not_working_cycles_end {s : State} (h : StraightLine s) :
    ¬ Working (cycles (s.maxPc.toNat / 4 + 1) s) := by
  have hpc := h.toNat_cycles_pc (n := s.maxPc.toNat / 4 + 1) (by omega)
  have hstop : (cycles (s.maxPc.toNat / 4 + 1) s).running = false :=
    not_running_of_maxPc_lt_pc (by rw [cycles_maxPc, hpc]; omega)
  rintro ⟨hrun, -⟩
  rw [hstop] at hrun
  contradiction

/-- Settles O47: up to the address MAX_PC selects every call works, the first one past it does not; the last Step of the
N-th instruction is call N + 4. -/
theorem straightLineDrains : Obligations.StraightLineDrains := by
  intro s hlaunched hloaded hmax himem
  have h : StraightLine s := ⟨hlaunched, hloaded, hmax, himem⟩
  refine ⟨fun k hk => ⟨h.working_cycles hk, ?_⟩, fun N _ => ⟨fun hall => ?_, fun hN j hj => ?_⟩⟩
  · rw [cycles_pc_of_branchFree (hlaunched.branchFree himem), hlaunched.pc_eq, BitVec.zero_add]
  · by_contra hlt
    exact h.not_working_cycles_end (hall _ (by omega))
  · exact h.working_cycles (by omega)

end Sys2Proof.Machine
end

section
/-! Two instructions against each other in the pipeline: which instruction steers a fetch (O46), and a load directly behind a
store (O50). -/

namespace Sys2Proof.Machine

open Laws

/-! ### Where an instruction of a run stands (R142) -/

theorem fetched_wf (s : State) (n : Nat) : (fetched s n).wf = true := decode_wf _

/-- Two Steps after an instruction of a run is fetched its word is in DX. -/
theorem inDecode_fetched (s : State) (n : Nat) :
    InDecode (encode (fetched s n)) (cycles n s).pc (cycles (n + 2) s) (cycles (n + 2) s).dx.w := by
  rw [fetched, encode_decode]
  exact decode_step rfl

/-- A Step later its control vector is in XM. -/
theorem xm_ctrl_fetched (s : State) (n : Nat) :
    (cycles (n + 3) s).xm.w.ctrl = controlDecode (encode (fetched s n)) := by
  obtain ⟨-, hx⟩ := execute_step (inDecode_fetched s n)
  rw [cycles_succ, hx]

/-! ### The recurrence of the fetch addresses (R264) -/

/-- `beq` is the one instruction whose row has Branch 1. -/
theorem branch_eq_false_of_ne_beq {i : Instr} (hwf : i.wf = true) (h : ∀ rs rt offset, i ≠ .beq rs rt offset) :
    (controlDecode (encode i)).branch = false := by
  refine controlDecode_branch_eq_false fun hop => ?_
  have hbeq := decode_beq hop
  rw [decodeEncodeAgree i hwf] at hbeq
  exact h _ _ _ hbeq

/-- The address after the one fetched at, unless the instruction in XM is a branch. -/
theorem cycles_succ_pc_of_no_branch {s : State} {n : Nat} (h : (cycles n s).xm.w.ctrl.branch = false) :
    (cycles (n + 1) s).pc = (cycles n s).pc + 4#32 :=
  workingCycle_pc_of_no_branch h _

/-- A `beq` of a run decides the fetch address four Steps on. -/
theorem cycles_pc_of_fetched_beq {s : State} {n : Nat} {rs rt : RegIdx} {offset : BitVec 16}
    (h : fetched s n = .beq rs rt offset) :
    (cycles (n + 4) s).pc =
      if (cycles (n + 2) s).reg rs = (cycles (n + 2) s).reg rt then
        (cycles n s).pc + 4#32 + sext32 offset <<< 2
      else (cycles (n + 3) s).pc + 4#32 := by
  have hdx := inDecode_fetched s n
  rw [h] at hdx
  exact (branch_course hdx).pc

/-- Settles O46: in the first three Steps XM holds reset content or its zero word, and from then on the instruction fetched
three Steps before. -/
theorem fetchRecurrence : Obligations.FetchRecurrence := by
  intro s n hlaunched hworking
  refine ⟨run_of_working (n + 1) fun j hj => hworking j (Nat.le_of_lt_succ hj), hlaunched.pc_eq, ?_⟩
  split
  case isFalse hn =>
    obtain ⟨⟨hbranch, -⟩, -⟩ := hlaunched.inert (Nat.lt_of_not_le hn)
    exact cycles_succ_pc_of_no_branch hbranch
  case isTrue hn =>
    obtain ⟨m, rfl⟩ := Nat.exists_eq_add_of_le' hn
    split
    next hbeq => exact cycles_pc_of_fetched_beq hbeq
    next hne =>
      refine cycles_succ_pc_of_no_branch ?_
      rw [xm_ctrl_fetched]
      exact branch_eq_false_of_ne_beq (fetched_wf s m) hne

/-! ### A load directly behind a store (R272) -/

/-- A load of the cell a store in range has just replaced (R54, R55). -/
theorem Memory.load_store {m : Memory} {words : Nat} {a b : Word} (hwf : m.wf words = true)
    (hcell : cellIndex a = cellIndex b) (hin : inRange words a = true) (v : Word) (n : Nat) :
    (m.store words a v).load words b n = v := by
  rw [← load_congr hcell, load_of_inRange hin, cell_store hwf, if_pos ⟨hin, rfl⟩]

/-- The state a working call answers. -/
theorem eq_cycle_of_step {s t : State} (hwork : Working s) (h : step s = .next t) : t = cycle s := by
  rw [step_of_working hwork] at h
  cases h
  rfl

section
variable {i : Instr} {s s1 s2 s3 s4 s5 : State} (h : Passage i s s1 s2 s3 s4 s5)
include h

/-- The first Step of a passage is a working cycle, whatever the guard would say. -/
theorem Passage.eq_workingCycle : s1 = workingCycle (encode i) s := by
  have hfetch := h.fetch
  rw [exec_eq_workingCycle] at hfetch
  cases hfetch
  rfl

theorem Passage.eq_cycle_workingCycle (hwork : Working s1) : s2 = cycle (workingCycle (encode i) s) := by
  rw [eq_cycle_of_step hwork h.decode, h.eq_workingCycle]

/-- After the second Step of a passage its word is in DX. -/
theorem Passage.inDecode (hwork : Working s1) : InDecode (encode i) s.pc s2 s2.dx.w := by
  rw [h.eq_cycle_workingCycle hwork]
  exact decode_step rfl

end

/-- A store in DX with a load behind it: the Memory stage stores the word in the Step before it reads, and the load
delivers the cell stored to. -/
theorem cycle_reg_of_load_behind_store {rt rs rt' rs' : RegIdx} {offset offset' : BitVec 16} {p p' : Word} {s : State}
    (hsw : InDecode (encode (.sw rt offset rs)) p s s.dx.w)
    (hlw : InDecode (encode (.lw rt' offset' rs')) p' (cycle s) (cycle s).dx.w)
    (hwf : s.dmem.wf s.capacities.dmemWords = true)
    (hcell : cellIndex (effectiveAddress (s.reg rs) offset) =
      cellIndex (effectiveAddress ((cycle s).reg rs') offset'))
    (hin : Memory.inRange s.capacities.dmemWords (effectiveAddress (s.reg rs) offset) = true) :
    (cycle (cycle (cycle (cycle s)))).reg rt' = if rt' = 0#5 then 0#32 else s.reg rt := by
  obtain ⟨hswRow, -⟩ := ControlRow.sw rt offset rs rfl
  obtain ⟨hlwRow, -⟩ := ControlRow.lw rt' offset' rs' rfl
  have hstore := access_course rfl hswRow (.inr rfl) hsw
  have hload := access_course rfl hlwRow (.inl rfl) hlw
  obtain ⟨hmem, -⟩ := memory_step_store hstore.carried
  obtain ⟨-, -, hread⟩ := memory_step_load hload.carried
  have hdata : (cycle (cycle (cycle s))).mw.w.readData = s.reg rt := by
    rw [hread, hload.latched, hload.refreshed, hmem, hstore.latched, hstore.refreshed, hstore.data]
    exact Memory.load_store (cycle_dmem_wf hwf) hcell hin _ _
  have hctrl : (cycle (cycle (cycle s))).mw.w.ctrl = Control.lw := by rw [cycle_mw]; exact hload.carried
  have hdest : (cycle (cycle (cycle s))).mw.w.dest = rt' := by rw [cycle_mw]; exact hload.dest
  rw [writeBack_step_load hctrl, hdest, hdata, if_pos rfl]

/-- Settles O50: the two passages run one Step apart, so that the store is in DX when the load is in FD. -/
theorem loadBehindStoreGetsIt : Obligations.LoadBehindStoreGetsIt := by
  intro rt rs rt' rs' offset offset' s s1 s2 s3 s4 s5 s6 hwf hsw hlw h1 h2 h3 h4 h5 hcell hin
  have hswDx := hsw.inDecode h1
  have hlwDx := hlw.inDecode h2
  have hs2 := hsw.eq_cycle_workingCycle h1
  have hcapacities : s2.capacities = s.capacities := by rw [hs2, cycle_capacities, workingCycle_capacities]
  have hwf2 : s2.dmem.wf s2.capacities.dmemWords = true := by
    rw [hs2]
    exact cycle_dmem_wf (workingCycle_dmem_wf hwf _)
  obtain rfl := eq_cycle_of_step h2 hsw.execute
  obtain rfl := eq_cycle_of_step h3 hsw.memory
  obtain rfl := eq_cycle_of_step h4 hsw.writeBack
  obtain rfl := eq_cycle_of_step h5 hlw.writeBack
  exact cycle_reg_of_load_behind_store hswDx hlwDx hwf2 hcell (hcapacities ▸ hin)

end Sys2Proof.Machine
end

section
/-! The pipeline against the reference machine (O51). An instruction's passage beside its effect alone: the stages after
Decode do to `inTurn`, what the instruction in DX finds when its turn comes, what `effect` does to the reference machine's
state, as long as the registers it uses have not changed since Decode read them. -/

namespace Sys2Proof.Machine

open Laws

/-! ### What a word does from its DX slot on -/

/-- What the instruction in DX finds when its turn comes: the ALU result before its Execute stage, the data memory before
its Memory stage, the registers before its Write-Back. -/
def State.inTurn (s : State) : Arch :=
  ⟨(cycle (cycle s)).x, (cycle s).dmem, s.aluResult, (cycle s).freeCount⟩

/-- What Execute, Memory and Write-Back make of it for a word whose dispatch leaves `result`, `data` being its second
register as Decode read it. -/
def Arch.finish (words : Nat) (w result data : Word) (a : Arch) : Arch :=
  { x :=
      if (controlDecode w).regWrite then
        RegFile.write a.x (courseDest w) (writeBackValue
          { ctrl := controlDecode w
            aluResult := result
            dest := courseDest w
            readData := if (controlDecode w).memRead then a.dmem.load words result a.freeCount else 0#32 })
      else a.x
    dmem := if (controlDecode w).memWrite then a.dmem.store words result data else a.dmem
    aluResult := result
    freeCount := if (controlDecode w).memRead then Memory.loadCount words result a.freeCount else a.freeCount }

/-- The Steps of a word from its DX slot on, with all they leave (R134 to R136). -/
theorem inTurn_cycle {w p : Word} {s : State} (h : InDecode w p s s.dx.w) :
    (cycle s).inTurn = s.inTurn.finish s.capacities.dmemWords w (courseResult w s) (s.reg (rtOf w)) := by
  obtain ⟨halu, hx⟩ := execute_step h
  rw [InExecute] at hx
  have hmw : (cycle (cycle s)).mw.w =
      { ctrl := controlDecode w
        aluResult := courseResult w s
        dest := courseDest w
        readData :=
          if (controlDecode w).memRead then
            (cycle s).dmem.load s.capacities.dmemWords (courseResult w s) (cycle s).freeCount
          else 0#32 } := by
    rw [cycle_mw, hx, cycle_capacities]
  rw [State.inTurn, cycle_x, hmw, cycle_dmem (cycle s), cycle_freeCount (cycle s), hx, halu, cycle_capacities]
  rfl

/-! ### The same as the effect of the instruction alone (R275) -/

/-- The no-op row's dispatch retains (R101, D16). -/
theorem courseResult_of_noOp {w : Word} (hc : controlDecode w = Control.noOp) (s : State) :
    courseResult w s = s.aluResult := by
  rw [courseResult, hc, Control.noOp, aluControl_noOp]
  exact alu_retains (by decide) (by decide) (by decide) (by decide) _ _ _

section
variable {words : Nat} {w result data : Word} {a : Arch}

theorem Arch.finish_of_noOp (hc : controlDecode w = Control.noOp) (hresult : result = a.aluResult) :
    a.finish words w result data = a := by
  simp [finish, hc, Control.noOp, hresult]

theorem Arch.finish_of_beq (hc : controlDecode w = Control.beq) :
    a.finish words w result data = { a with aluResult := result } := by
  simp [finish, hc, Control.beq]

theorem Arch.finish_of_rType (hc : controlDecode w = Control.rType) :
    a.finish words w result data = a.compute (rdOf w) result := by
  simp [finish, hc, Control.rType, courseDest, compute, writeBackValue]

theorem Arch.finish_of_sw (hc : controlDecode w = Control.sw) :
    a.finish words w result data =
      { a with dmem := a.dmem.store words result data, aluResult := result } := by
  simp [finish, hc, Control.sw]

theorem Arch.finish_of_lw (hc : controlDecode w = Control.lw) :
    a.finish words w result data =
      { a with
        x := RegFile.write a.x (rtOf w) (a.dmem.load words result a.freeCount)
        aluResult := result
        freeCount := Memory.loadCount words result a.freeCount } := by
  simp [finish, hc, Control.lw, courseDest, writeBackValue]

end

/-- The row and the selector of every instruction (R78, R104). -/
theorem controlRow_statement (i : Instr) : ControlRow.Statement i := by
  cases i with
  | nop => exact ControlRow.nop
  | add rd rs rt shamt => exact ControlRow.add rd rs rt shamt
  | sub rd rs rt shamt => exact ControlRow.sub rd rs rt shamt
  | and rd rs rt shamt => exact ControlRow.and rd rs rt shamt
  | or rd rs rt shamt => exact ControlRow.or rd rs rt shamt
  | slt rd rs rt shamt => exact ControlRow.slt rd rs rt shamt
  | rtypeOther rd rs rt shamt funct => exact ControlRow.rtypeOther rd rs rt shamt funct
  | lw rt offset rs => exact ControlRow.lw rt offset rs
  | sw rt offset rs => exact ControlRow.sw rt offset rs
  | beq rs rt offset => exact ControlRow.beq rs rt offset
  | unknown opcode rest => exact ControlRow.unknown opcode rest

theorem controlDecode_encode {i : Instr} (hwf : i.wf = true) : controlDecode (encode i) = ControlRow.row i :=
  (controlRow_statement i hwf).1

section
variable {words : Nat} {a : Arch} {s : State} {i : Instr}

section
variable {rd rs rt : RegIdx} {shamt : BitVec 5} {funct : BitVec 6}
  (henc : encode i = packR 0#6 rs rt rd shamt funct) (hwf : i.wf = true)
  (hrow : ControlRow.row i = Control.rType) (data : Word)
include henc hwf hrow

/-- An R-type instruction computes its selector's result on the registers Decode read. -/
theorem Arch.finish_rType :
    a.finish words (encode i) (courseResult (encode i) s) data =
      a.compute rd (alu (ControlRow.selector i) (s.reg rs) (s.reg rt) s.aluResult) := by
  rw [finish_of_rType ((controlDecode_encode hwf).trans hrow),
    courseResult_of_rType henc hwf (controlRow_statement i) hrow, henc, rdOf_packR]

/-- An R-type instruction that uses both registers computes on those of `a`. -/
theorem Arch.finish_rType_of_uses (hused : usedRegs i = [rs, rt]) (hregs : ∀ r ∈ usedRegs i, s.reg r = a.reg r) :
    a.finish words (encode i) (courseResult (encode i) s) data =
      a.compute rd (alu (ControlRow.selector i) (a.reg rs) (a.reg rt) s.aluResult) := by
  rw [finish_rType henc hwf hrow, hregs rs (by simp [hused]), hregs rt (by simp [hused])]

end

/-- An instruction that Execute finds with the ALU result and the used registers of `a` does to `a` what it does alone. The
registers it does not use take no part: a retaining selector ignores both, a load the second. -/
theorem finish_eq_effect (hwf : i.wf = true) (hregs : ∀ r ∈ usedRegs i, s.reg r = a.reg r)
    (halu : s.aluResult = a.aluResult) :
    a.finish words (encode i) (courseResult (encode i) s) (s.reg (rtOf (encode i))) = effect words i a := by
  have hc := controlDecode_encode hwf
  cases i with
  | nop => exact Arch.finish_of_noOp hc ((courseResult_of_noOp hc s).trans halu)
  | add rd rs rt shamt => exact Arch.finish_rType_of_uses rfl hwf rfl _ rfl hregs
  | sub rd rs rt shamt => exact Arch.finish_rType_of_uses rfl hwf rfl _ rfl hregs
  | and rd rs rt shamt => exact Arch.finish_rType_of_uses rfl hwf rfl _ rfl hregs
  | or rd rs rt shamt => exact Arch.finish_rType_of_uses rfl hwf rfl _ rfl hregs
  | slt rd rs rt shamt =>
    rw [Arch.finish_rType rfl hwf rfl, ControlRow.selector, alu_slt, halu]
    rfl
  | rtypeOther rd rs rt shamt funct => exact Arch.finish_rType_of_uses rfl hwf rfl _ rfl hregs
  | lw rt offset rs =>
    have hresult := courseResult_of_access (s := s) (w := encode (.lw rt offset rs)) rfl hc (.inl rfl)
    rw [Arch.finish_of_lw hc, hresult, hregs rs (by simp [usedRegs]), encode, rtOf_packI]
    rfl
  | sw rt offset rs =>
    have hresult := courseResult_of_access (s := s) (w := encode (.sw rt offset rs)) rfl hc (.inr rfl)
    rw [Arch.finish_of_sw hc, hresult, hregs rs (by simp [usedRegs]), encode, rtOf_packI,
      hregs rt (by simp [usedRegs])]
    rfl
  | beq rs rt offset =>
    rw [Arch.finish_of_beq hc, courseResult_of_beq, hregs rs (by simp [usedRegs]), hregs rt (by simp [usedRegs])]
    rfl
  | unknown opcode rest => exact Arch.finish_of_noOp hc ((courseResult_of_noOp hc s).trans halu)

/-- The register Write-Back writes for an instruction's word is the one it names as written (R267). -/
theorem writtenReg_eq (hwf : i.wf = true) :
    writtenReg i = if (controlDecode (encode i)).regWrite then some (courseDest (encode i)) else none := by
  rw [courseDest, controlDecode_encode hwf]
  cases i <;> simp [writtenReg, ControlRow.row, encode, Control.noOp, Control.rType, Control.lw, Control.sw, Control.beq]

/-- Write-Back for an instruction's word spares every register the instruction does not write. -/
theorem courseDest_ne_of_not_written (hwf : i.wf = true) {r : RegIdx} (h : writtenReg i ≠ some r) :
    (controlDecode (encode i)).regWrite = false ∨ r ≠ courseDest (encode i) := by
  rw [writtenReg_eq hwf] at h
  refine (Bool.eq_false_or_eq_true _).symm.imp_right fun hwrite => ?_
  rintro rfl
  exact h (if_pos hwrite)

end

/-! ### A run beside the reference machine's -/

section
variable {s : State}

/-- Four Steps after an instruction of a run is fetched MW names the register it writes. -/
theorem mw_fetched (s : State) (n : Nat) :
    (cycles (n + 4) s).mw.w.ctrl = controlDecode (encode (fetched s n)) ∧
      (cycles (n + 4) s).mw.w.dest = courseDest (encode (fetched s n)) := by
  obtain ⟨-, hx⟩ := execute_step (inDecode_fetched s n)
  rw [cycles_succ, cycle_mw, cycles_succ, hx]
  exact ⟨rfl, rfl⟩

/-- The first four cycles of a launched run write no register: MW holds reset content or the zero word that was in FD. -/
theorem Launched.mw_regWrite (h : Launched s) {n : Nat} (hn : n ≤ 3) : (cycles n s).mw.w.ctrl.regWrite = false := by
  match n, hn with
  | 0, _ => rw [cycles_zero, h.mw_ctrl_eq]; rfl
  | n + 1, hn =>
    obtain ⟨⟨-, -, -, hreg⟩, -⟩ := h.inert (k := n) (by omega)
    rw [cycles_succ, cycle_mw]
    exact hreg

/-- The Write-Back of a Step leaves a register that the instruction fetched four Steps before does not write. -/
theorem Launched.cycles_succ_reg (h : Launched s) {n : Nat} {r : RegIdx}
    (hr : ∀ j, j + 4 = n → writtenReg (fetched s j) ≠ some r) : (cycles (n + 1) s).reg r = (cycles n s).reg r := by
  refine workingCycle_reg_frame ?_ _
  by_cases hn : 4 ≤ n
  · obtain ⟨j, rfl⟩ := Nat.exists_eq_add_of_le' hn
    obtain ⟨hctrl, hdest⟩ := mw_fetched s j
    rw [hctrl, hdest]
    exact courseDest_ne_of_not_written (fetched_wf s j) (hr j rfl)
  · exact .inl (h.mw_regWrite (by omega))

/-- Without a hazard the registers an instruction uses stand, when its own Write-Back comes, as Decode read them two Steps
before: the two Write-Backs between are those of the two instructions before it (R267). -/
theorem Launched.reg_inTurn (h : Launched s) {k n : Nat} (hfree : HazardFree s k) (hn : n ≤ k) {r : RegIdx}
    (hr : r ∈ usedRegs (fetched s n)) : (cycles (n + 2) s).reg r = (cycles (n + 2) s).inTurn.reg r := by
  by_cases hzero : r = 0#5
  · subst hzero
    exact (RegFile.read_zero _).trans (RegFile.read_zero _).symm
  have hnot : ∀ d, d = 1 ∨ d = 2 → ∀ j, j + d = n → writtenReg (fetched s j) ≠ some r := by
    rintro d hd j rfl
    exact hfree j d hn hd r hr hzero
  have hsecond := h.cycles_succ_reg (n := n + 2) fun j hj => hnot 2 (.inr rfl) j (by omega)
  have hfirst := h.cycles_succ_reg (n := n + 3) fun j hj => hnot 1 (.inl rfl) j (by omega)
  exact (hfirst.trans hsecond).symm

/-- The first three cycles of a launched run draw no free word. -/
theorem Launched.freeCount_cycles (h : Launched s) {n : Nat} (hn : n ≤ 3) : (cycles n s).freeCount = s.freeCount := by
  induction n with
  | zero => rfl
  | succ n ih =>
    obtain ⟨⟨hbranch, hread, hwrite, -⟩, -⟩ := h.inert hn
    obtain ⟨-, -, hfree⟩ := memory_step_quiet hbranch hread hwrite
    exact hfree.trans (ih (Nat.le_of_succ_le hn))

/-- A launched run meets its first instruction in DX with the registers, the data memory and the ALU result of the launch. -/
theorem Launched.inTurn_cycles_two (h : Launched s) : (cycles 2 s).inTurn = s.arch := by
  obtain ⟨hx, hdmem, -⟩ := cycles_of_inert fun k (hk : k < 3) => h.inert hk
  have hx4 : (cycles 4 s).x = s.x := (writeBack_step_quiet (h.mw_regWrite le_rfl)).trans hx
  have halu : (cycles 2 s).aluResult = s.aluResult := (h.aluResult_cycles le_rfl).trans h.aluResult_eq.symm
  calc (cycles 2 s).inTurn
      = ⟨(cycles 4 s).x, (cycles 3 s).dmem, (cycles 2 s).aluResult, (cycles 3 s).freeCount⟩ := rfl
    _ = s.arch := by rw [hx4, hdmem, halu, h.freeCount_cycles le_rfl, State.arch]

/-- The simulation: as each instruction of a launched run comes into DX, its turn finds what the reference machine has. -/
theorem Launched.inTurn_eq_reference (h : Launched s) {k : Nat} (hfree : HazardFree s k) {n : Nat} (hn : n ≤ k + 1) :
    (cycles (n + 2) s).inTurn = reference s n := by
  induction n with
  | zero => exact h.inTurn_cycles_two
  | succ n ih =>
    have hturn := ih (by omega)
    have hregs : ∀ r ∈ usedRegs (fetched s n), (cycles (n + 2) s).reg r = (cycles (n + 2) s).inTurn.reg r :=
      fun r => h.reg_inTurn hfree (by omega)
    calc (cycles (n + 1 + 2) s).inTurn
        = (cycle (cycles (n + 2) s)).inTurn := rfl
      _ = effect (cycles (n + 2) s).capacities.dmemWords (fetched s n) (cycles (n + 2) s).inTurn := by
        rw [inTurn_cycle (inDecode_fetched s n), finish_eq_effect (fetched_wf s n) hregs rfl]
      _ = reference s (n + 1) := by rw [cycles_capacities, hturn, reference]

end

/-- Settles O51: what instruction k + 1 would find in its turn is what instruction k leaves, in the Steps k + 5, k + 4 and
k + 3. -/
theorem pipelineEqualsSequential : Obligations.PipelineEqualsSequential := by
  intro s k h hworking hfree
  have hturn := h.inTurn_eq_reference hfree (n := k + 1) le_rfl
  rw [← hturn]
  exact ⟨run_of_working (k + 5) hworking, rfl, rfl, rfl, rfl⟩

end Sys2Proof.Machine
end
